-- ==== Sys2Proof/Word.lean ====
section
/-! DEFINITION. The value types of 00_scope.md R9. What the spec treats as bits (words, patterns, character codes,
addresses that wrap) is a bit vector; what it treats as an index or a count is a `Fin`. -/

namespace Sys2Proof

/-- `Word`: register words, command words, response words (R9). -/
abbrev Word := BitVec 32

/-- `Nibble`: `ROWSEL` and the entries of `ROW_PAT` (R9). -/
abbrev Nibble := BitVec 4

/-- `Pattern`: bit 7 the decimal-point bit, bits 6:0 the seven segments, a set bit lit (R9, R33). -/
abbrev Pattern := BitVec 8

/-- `Char` of R9: an 8-bit character code. -/
abbrev CharCode := BitVec 8

/-- `Row`: keypad row index 0..3 (R9). -/
abbrev Row := Fin 4

/-- `Col`: keypad column index 0..3 (R9). -/
abbrev Col := Fin 4

/-- `Pos`: the 3-bit position operand, of which 0..5 are legal (R9, R86). -/
abbrev Pos := Fin 8

/-- A legal display position, 0 (rightmost) to 5 (leftmost) (R28). -/
abbrev Digit := Fin 6

/-- `Len`: a 12-bit count of characters (R9). -/
abbrev Len := Fin 4096

/-- `BufAddr`: a byte address in `BUF`; it wraps modulo 2^16 (R9, R53). -/
abbrev BufAddr := BitVec 16

end Sys2Proof
end

