-- ==== Sys2Proof/Config.lean ====
section
/-! DEFINITION. The parameters the spec leaves OPEN (00_scope.md R7) and the free values (R12, R40, 93 U12, U14).
`Config` is carried in `State`, so a claim about every state is a claim about every configuration; what the device's
own configuration is, is `Config.device`, of which nothing is known but the constraints of R7. -/

namespace Sys2Proof

/-- The OPEN parameters of R7, plain data. No operation writes them (R68). -/
structure Config where
  /-- `ROW_PAT`: the 4-bit value that selects each row (R111). -/
  rowPat : Vector Nibble 4
  /-- `SEG`: the pattern of each alphabet character, in the code order of R131 (R134). -/
  seg : Vector Pattern 23
  /-- `TRAILING_BLANK_FILL` (R143, 90_conflicts.md C2). -/
  trailingBlankFill : Bool
  /-- `OFF_OUT`: byte offset of the output word in GPIO block 0 (R51). -/
  offOut : Nat
  /-- `BASE_G0` (R63). -/
  baseG0 : Nat
  /-- `BASE_DLO` (R52, R63). -/
  baseDlo : Nat
  /-- `BASE_DHI`, separately based (R52, R63). -/
  baseDhi : Nat
  /-- `T_SETTLE`: read by no rule of the model (R206). -/
  tSettle : Nat
  deriving DecidableEq, Repr, Inhabited

/-- `OFF_IN`: the unaudited literal of the source (R51, 92 D16). -/
def Config.offIn : Nat := 0x50

/-- A 4-bit value with exactly one bit set (00_scope.md section 6). -/
def Nibble.isOneHot (v : Nibble) : Bool :=
  v == 0b0001#4 || v == 0b0010#4 || v == 0b0100#4 || v == 0b1000#4

/-- The address ranges `[a, a+m)` and `[b, b+n)` do not meet. -/
def Config.apart (a m b n : Nat) : Bool := decide (a + m ≤ b) || decide (b + n ≤ a)

/-- How far GPIO block 0 reaches at least: past both of the words the block touches. DEDUCED (log 8), safe: the spec
gives the block no size, so this asks less of the bases than the real block may. -/
def Config.g0Extent (c : Config) : Nat := max c.offOut Config.offIn + 4

/-- The constraints R7 and R111 put on the OPEN parameters: `ROW_PAT` one-hot and pairwise distinct, `OFF_OUT` a
multiple of 4 and not `OFF_IN`, the three blocks pairwise disjoint. -/
def Config.wf (c : Config) : Bool :=
  c.rowPat.toList.all Nibble.isOneHot &&
  decide c.rowPat.toList.Nodup &&
  decide (c.offOut % 4 = 0) &&
  decide (c.offOut ≠ Config.offIn) &&
  Config.apart c.baseG0 c.g0Extent c.baseDlo 4 &&
  Config.apart c.baseG0 c.g0Extent c.baseDhi 4 &&
  Config.apart c.baseDlo 4 c.baseDhi 4

/-- A free configuration: nothing in Lean can say what it is. -/
opaque Config.free : Config

/-- A configuration that meets the constraints of R7, to show that they can be met; no statement about the hardware. -/
def Config.witness : Config where
  rowPat := #v[0b0001#4, 0b0010#4, 0b0100#4, 0b1000#4]
  seg := Vector.replicate 23 0#8
  trailingBlankFill := false
  offOut := 0
  baseG0 := 0
  baseDlo := 0x100
  baseDhi := 0x200
  tSettle := 0

/-- The device's own configuration: some configuration that meets the constraints of R7, and nothing more is known of
it (log 8). -/
def Config.device : Config := if Config.free.wf then Config.free else Config.witness

/-- Free value: what the `n`-th free draw of `G0.IN` returns when `State.inputs` names no word for it (R12, log 3). -/
opaque Config.freeInput : Nat → Word

/-- Free value: `ROWSEL` after a Reset, until the first `SCAN` completes (R40, log 5). -/
opaque Config.freeRowsel : Nat → Nibble

/-- Free value: the display latches after a Reset, until first written (R40, log 5). -/
opaque Config.freeLatch : Nat → Digit → Pattern

/-- Free value: what a byte of `BUF` that the host never stored holds (93 U14, log 9). -/
opaque Config.freeByte : BufAddr → CharCode

end Sys2Proof
end

