-- ==== Sys2Proof/Machine/State.lean ====
section
/-! DEFINITION. The state: the architectural state of 10_state.md R20, the operation that may be in progress for ever
(20_memory.md R70), the parameters (00_scope.md R7), and, as plain data, the host's and the environment's side of the
command port, the buffer and the pins, and what a run lets one observe (70_reset_and_hazards.md R215). -/

namespace Sys2Proof.Machine

/-- A 4×4 grid of Booleans, indexed `[r][c]` (R21). -/
abbrev Grid := Vector (Vector Bool 4) 4

/-- The grid with `f r c` in cell `[r][c]`. -/
def Grid.ofFn (f : Row → Col → Bool) : Grid := Vector.ofFn fun r => Vector.ofFn (f r)

/-- Both grids after Reset: `KM_RESET = false` in every cell (R40, 92 D17). -/
def Grid.atReset : Grid := Grid.ofFn fun _ _ => false

/-- The two display blocks: `DLO` holds positions 0..3, `DHI` positions 4..5 (R29). -/
inductive Half where
  | lo
  | hi
  deriving DecidableEq, Repr

/-- The closed event alphabet of R11. -/
inductive Event where
  /-- `RowSel(v)`: a write of the row-select field (R54). -/
  | rowSel (v : Nibble)
  /-- `InRead(w)`: a read of the input register (R55). -/
  | inRead (w : Word)
  /-- `DispWrite(h, k, v)`: a write of byte `k` of a display block (R56). -/
  | dispWrite (h : Half) (k : Fin 4) (v : Pattern)
  /-- `BufRead(a, b)`: a read of a buffer byte (R57). -/
  | bufRead (a : BufAddr) (b : CharCode)
  deriving DecidableEq, Repr

/-- What reaches the block from outside, between operations (log 1). -/
inductive Stimulus where
  /-- The host presents a command word at the command port (R80). -/
  | command (cmd : Word)
  /-- The reset event (R200, R201): between operations, or during the operation of a command word, when it has performed
  so many events and not yet answered (log 7). -/
  | reset (during : Option (Word × Nat))
  /-- The host stores a character in `BUF` (R53). -/
  | store (a : BufAddr) (ch : CharCode)
  deriving DecidableEq, Repr

/-- The abnormal outcomes of a command that produce a response (R170). -/
inductive Cause where
  /-- `PositionRange(pos)`: `WRITE_AT` with `pos` 6 or 7 (R171). -/
  | positionRange (pos : Pos)
  /-- `ReservedCommand(cmd)`: the word spells no operation (R172). -/
  | reservedCommand (cmd : Word)
  /-- `Faulted`: the block is already faulted (R173). -/
  | faulted
  deriving DecidableEq, Repr

/-- The host's buffer: the bytes it has stored, (address, byte) with the addresses strictly rising. What an unlisted
address reads as is `Config.freeByte` (log 9). -/
abbrev Memory := List Host.Cell

/-- The whole state. -/
structure State where
  /-- `CUR`: the last scan (R21). -/
  cur : Grid
  /-- `PREV`: the scan before it (R22). -/
  prev : Grid
  /-- `ROWSEL`: the row-select outputs, bits 3:0 of `G0.OUT` (R25, R31). -/
  rowsel : Nibble
  /-- `DISP[0..5]`: the segment pattern latches (R28, R33, R34). -/
  disp : Vector Pattern 6
  /-- `FAULT` (R37). -/
  fault : Bool
  /-- An accepted operation is waiting for an access that never completes (R70, R118). -/
  hung : Bool
  /-- The OPEN parameters (R7, log 8). -/
  cfg : Config
  /-- What the host and the reset line will do, oldest first (R80, R81, log 1). -/
  port : List Stimulus
  /-- `BUF`: what the host has stored (R53, log 9). -/
  buf : Memory
  /-- The words the coming reads of `G0.IN` return, first one first (R12, log 3). -/
  inputs : List Word
  /-- Whether each coming access of `G0`, `DLO` or `DHI` completes, first one first (R70, log 4). -/
  bus : List Bool
  /-- How many free values have been drawn (log 6). -/
  draws : Nat
  /-- The response words so far, oldest first (R88, R215, log 10). -/
  responses : List Word
  /-- The events so far, oldest first (R11, R215, log 10). -/
  trace : List Event
  deriving DecidableEq, Repr

/-- Why the machine stops with a fault: it never does. Every abnormal outcome the spec lists (R170, "There are no
others") has an effect the spec gives, so each is a next state: `PositionRange`, `ReservedCommand` and `Faulted` answer
a response word, a hang leaves a state with `hung` (log 2). Raised by nobody, so safe. -/
inductive Fault where
  deriving DecidableEq, Repr

/-- Why the machine refuses an instruction. -/
inductive Refusal where
  /-- An arm of `exec` whose instruction has no meaning yet. Safe. No arm raises it: all ten have one. -/
  | notModelled (mnemonic : String)
  deriving DecidableEq, Repr

/-- The machine right after `Reset` (R40, R200), with nothing presented and nothing stored yet. `ROWSEL` and `DISP` are
the free values R40 asks for (log 5). -/
def State.reset : State where
  cur := Grid.atReset
  prev := Grid.atReset
  rowsel := Config.freeRowsel 0
  disp := Vector.ofFn (Config.freeLatch 0)
  fault := false
  hung := false
  cfg := Config.device
  port := []
  buf := []
  inputs := []
  bus := []
  draws := 1
  responses := []
  trace := []

end Sys2Proof.Machine
end

