-- ==== Sys2Proof/Machine/Operands.lean ====
section
/-! DEFINITION. Operand forms and fields: cells of the key matrix, bits of the input word, positions and their display
bytes, buffer windows, the character table, the response word. -/

namespace Sys2Proof.Machine

/-- Cell `[r][c]` of a grid (R21). -/
def Grid.cell (g : Grid) (r : Row) (c : Col) : Bool := g[r][c]

/-- The grid with cell `[r][c]` set to `b`. -/
def Grid.setCell (g : Grid) (r : Row) (c : Col) (b : Bool) : Grid := g.set r (g[r].set c b)

/-- The four row indices in scan order (R112, "ascending order, all four rows, every scan"). -/
def rows : List Row := [0, 1, 2, 3]

/-- The four column indices; ascending by the spec's choice (R118). -/
def columns : List Col := [0, 1, 2, 3]

/-- `COL_BIT(c) = 5 + c` (R32, 92 D14). -/
def colBit (c : Col) : Nat := 5 + c.val

/-- `COL_POL = 1`: a column bit that reads 1 is asserted (R32, 92 D13). -/
def colPol : Bool := true

/-- `w[5 + c] == COL_POL` (R112). -/
def columnAsserted (w : Word) (c : Col) : Bool := w.getLsbD (colBit c) == colPol

/-- `BATT`, bits 15:11 of the input word (R32, R161). -/
def battField (w : Word) : BitVec 5 := w.extractLsb' 11 5

/-- `BLANK`: all segments off (R7, 92 D7). -/
def blank : Pattern := 0x00#8

/-- The 23 codes of the supported alphabet in code order (R131). -/
def alphabet : List CharCode := [
  0x21#8, 0x28#8, 0x29#8, 0x2A#8, 0x2B#8, 0x2D#8, 0x2E#8, 0x2F#8,
  0x30#8, 0x31#8, 0x32#8, 0x33#8, 0x34#8, 0x35#8, 0x36#8, 0x37#8, 0x38#8, 0x39#8,
  0x5E#8, 0x63#8, 0x6C#8, 0x73#8, 0x74#8]

/-- `SEG(ch)` for a character of the alphabet, nothing for any other (R131, R134). -/
def segOf (cfg : Config) (ch : CharCode) : Option Pattern := (alphabet.zip cfg.seg.toList).lookup ch

/-- `encode(ch)`: total, pure, blank outside the alphabet (R132, R133). -/
def encodeChar (cfg : Config) (ch : CharCode) : Pattern := (segOf cfg ch).getD blank

/-- The decimal-point bit `DP` of a pattern (R33). -/
def decimalPoint (p : Pattern) : Bool := p.getLsbD 7

/-- The seven segments `SEGS` of a pattern (R33). -/
def segments (p : Pattern) : BitVec 7 := p.extractLsb' 0 7

/-- The six positions in the order of R142, 0 to 5. -/
def digits : List Digit := [0, 1, 2, 3, 4, 5]

/-- `half(pos)` (R29). -/
def half (p : Digit) : Half := if p.val ≤ 3 then .lo else .hi

/-- `offset(pos)`: `pos` in the first block, `pos - 4` in the second (R29). -/
def offset (p : Digit) : Fin 4 := if h : p.val ≤ 3 then ⟨p.val, by omega⟩ else ⟨p.val - 4, by omega⟩

/-- Which latch a byte of a display block is (R56). Bytes 2 and 3 of `DHI` are no latch of the block (R34). -/
def latchAt : Half → Fin 4 → Option Digit
  | .lo, k => some ⟨k.val, by omega⟩
  | .hi, k => if h : k.val < 2 then some ⟨4 + k.val, by omega⟩ else none

/-- `DLO` as one word, little-endian lanes (R33, R59, 92 D9). -/
def dloWord (disp : Vector Pattern 6) : Word := disp[3] ++ disp[2] ++ disp[1] ++ disp[0]

/-- The block's half of `DHI` as a word, bits 15:0 (R34, 92 D9). -/
def dhiHalfWord (disp : Vector Pattern 6) : BitVec 16 := disp[5] ++ disp[4]

/-- `n = min(6, len)` (R147). -/
def window (len : Len) : Nat := min 6 len.val

/-- The address of character `k` of the operand at `base`: `(base + k) mod 2^16` (R53, R89). -/
def charAddr (base : BufAddr) (k : Nat) : BufAddr := BitVec.ofNat 16 (base.toNat + k)

/-- Where `RENDER_TRAILING` finds the character for position `i`, the `i`-th newest: index `len - 1 - i` (R143). -/
def trailingAddr (base : BufAddr) (len : Len) (i : Digit) : BufAddr := charAddr base (len.val - 1 - i.val)

/-- Where `RENDER_RESULT` finds its `i`-th character (R144). -/
def resultAddr (base : BufAddr) (i : Digit) : BufAddr := charAddr base i.val

/-- Where `RENDER_RESULT` puts its `i`-th character: position `5 - i` (R144, R147). -/
def resultDigit (i : Digit) : Digit := ⟨5 - i.val, by omega⟩

/-- The response word: `ERR`, 13 zeros, `CODE`, 8 zeros, `DATA` (R88). -/
def responseWord (err : Bool) (code : BitVec 2) (data : BitVec 8) : Word :=
  BitVec.ofBool err ++ 0#13 ++ code ++ 0#8 ++ data

/-- A Boolean result in `DATA`: bit 0, bits 7:1 zero (R88). -/
def boolData (b : Bool) : BitVec 8 := (BitVec.ofBool b).setWidth 8

/-- `CODE` of an abnormal outcome (R170). -/
def Cause.code : Cause → BitVec 2
  | .positionRange _ => 1#2
  | .reservedCommand _ => 2#2
  | .faulted => 3#2

end Sys2Proof.Machine
end

