-- ==== Sys2Proof/Machine/Flags.lean ====
section
/-! DEFINITION. The edge detector (10_state.md R27): three combinational predicates per cell, pure functions of `CUR`
and `PREV`. The block stores no flag. -/

namespace Sys2Proof.Machine

/-- `pressed(r,c) = CUR[r][c]` (R27). -/
def State.pressed (s : State) (r : Row) (c : Col) : Bool := s.cur.cell r c

/-- `just_pressed(r,c) = CUR[r][c] and not PREV[r][c]` (R27). -/
def State.justPressed (s : State) (r : Row) (c : Col) : Bool := s.cur.cell r c && !s.prev.cell r c

/-- `just_released(r,c) = (not CUR[r][c]) and PREV[r][c]` (R27). -/
def State.justReleased (s : State) (r : Row) (c : Col) : Bool := !s.cur.cell r c && s.prev.cell r c

end Sys2Proof.Machine
end

