-- ==== Sys2Proof/Machine/Ops.lean ====
section
/-! DEFINITION. The shared operations: the buffer, the four access primitives (20_memory.md R54 to R57), the
position-routed write (42_display_driver.md R145), the response, the abnormal outcomes (60_exceptions.md R170 to R173)
and the reset event (70_reset_and_hazards.md R200), the only way out of a fault (R178). -/

namespace Sys2Proof.Machine

/-! ### The host's buffer -/

/-- The canonical form: addresses strictly rising and inside the 2^16 bytes of `BUF` (R53, log 9). -/
abbrev Memory.wf (m : Memory) : Prop := m.Pairwise (fun x y => x.1 < y.1) ∧ ∀ x ∈ m, x.1 < 65536

/-- The byte the host has stored at an address, if it has. -/
def Memory.stored : Memory → Nat → Option (BitVec 8)
  | [], _ => none
  | (a, b) :: m, k => if a = k then some b else Memory.stored m k

/-- The byte at an address of `BUF`: what the host stored, else a free value (R53, 93 U14, log 9). -/
def Memory.read (m : Memory) (a : BufAddr) : CharCode := (Memory.stored m a.toNat).getD (Config.freeByte a)

/-- The buffer after the host has stored `b` at address `k`; keeps the canonical form. -/
def Memory.insert : Memory → Nat → BitVec 8 → Memory
  | [], k, b => [(k, b)]
  | (a, x) :: m, k, b =>
    if k < a then (k, b) :: (a, x) :: m
    else if k = a then (a, b) :: m
    else (a, x) :: Memory.insert m k b

/-- The host stores a character in `BUF` (R53). -/
def State.storeByte (a : BufAddr) (ch : CharCode) (s : State) : State :=
  { s with buf := Memory.insert s.buf a.toNat ch }

/-! ### Events, responses, abnormal outcomes -/

/-- Append an event to the trace (R11). -/
def State.record (e : Event) (s : State) : State := { s with trace := s.trace ++ [e] }

/-- Answer the command with a response word (R88). -/
def State.respond (w : Word) (s : State) : State := { s with responses := s.responses ++ [w] }

/-- End a command abnormally (R170): `PositionRange` records `FAULT <- 1` (R171), a refusal records nothing (R172,
R173); the response has `ERR = 1` and the cause's `CODE` (R88). There is no handler to go to (R177). -/
def State.raise (c : Cause) (s : State) : State :=
  match c with
  | .positionRange _ => { s with fault := true }.respond (responseWord true c.code 0#8)
  | .reservedCommand _ => s.respond (responseWord true c.code 0#8)
  | .faulted => s.respond (responseWord true c.code 0#8)

/-- The reset event (R40, R200), in whatever state it finds the block: `CUR` and `PREV` all false, `FAULT` 0, `ROWSEL` and
`DISP` free values, no operation in progress and no response for the one that was. It changes nothing outside the block (log 7). -/
def State.resetEvent (s : State) : State :=
  { s with
    cur := Grid.atReset
    prev := Grid.atReset
    rowsel := Config.freeRowsel s.draws
    disp := Vector.ofFn (Config.freeLatch s.draws)
    fault := false
    hung := false
    draws := s.draws + 1 }

/-! ### Accesses

A sequence of accesses answers `.ok` with its result and the state, or `.error` with the way it stopped. -/

/-- How an operation ends before its last line: an access never completed (R70), with the state the events already
performed have reached; or it raised a cause (R170). -/
inductive Stop where
  | hang (s : State)
  | raised (c : Cause) (s : State)
  deriving DecidableEq, Repr

/-- One access of `G0`, `DLO` or `DHI` begins: it completes or never does, as the environment says (R70, log 4). -/
def busAccess (s : State) : Except Stop State :=
  match s.bus with
  | [] => .ok s
  | true :: rest => .ok { s with bus := rest }
  | false :: rest => .error (.hang { s with bus := rest })

/-- The environment's next word for `G0.IN`: the next of `inputs`, else a free draw (R12, log 3). -/
def nextInput (s : State) : Word × State :=
  match s.inputs with
  | [] => (Config.freeInput s.draws, { s with draws := s.draws + 1 })
  | w :: rest => (w, { s with inputs := rest })

/-- `MemWrite(G0 + OFF_OUT, 4, v)`: `ROWSEL <- v[3:0]` (R54). -/
def rowWrite (v : Word) (s : State) : Except Stop State := do
  let s ← busAccess s
  .ok ({ s with rowsel := v.extractLsb' 0 4 }.record (.rowSel (v.extractLsb' 0 4)))

/-- `MemRead(G0 + OFF_IN, 4)`: a draw, no state of the block changes (R55). -/
def inputRead (s : State) : Except Stop (Word × State) := do
  let s ← busAccess s
  let (w, s) := nextInput s
  .ok (w, s.record (.inRead w))

/-- The state with `DISP[p] <- v`. -/
def State.setLatch (p : Digit) (v : Pattern) (s : State) : State := { s with disp := s.disp.set p v }

/-- `MemWrite(DLO + k, 1, v)` and `MemWrite(DHI + k, 1, v)`: exactly one latch changes (R56). -/
def displayWrite (h : Half) (k : Fin 4) (v : Pattern) (s : State) : Except Stop State := do
  let s ← busAccess s
  match latchAt h k with
  | some p => .ok ((s.setLatch p v).record (.dispWrite h k v))
  | none => .ok (s.record (.dispWrite h k v))

/-- `put(pos, pat)`: the position-routed write (R145). -/
def put (p : Digit) (v : Pattern) (s : State) : Except Stop State := displayWrite (half p) (offset p) v s

/-- `MemRead(BUF + a, 1)`: the event; the character it returns is `s.buf.read a` (R57). `BUF` is the host's and always
answers: R70 names `G0`, `DLO` and `DHI` only (log 13). -/
def bufRead (a : BufAddr) (s : State) : Except Stop State := .ok (s.record (.bufRead a (s.buf.read a)))

/-! ### Operations at the trace level

A step at the trace level is one event of an operation (R11, R14). -/

/-- One action of an operation: one access with its event, and what the operation does with it before the next. -/
abbrev Action := State → Except Stop State

/-- Some actions one after another, each after the one before has completed (R65). -/
def runAll (actions : List Action) (s : State) : Except Stop State := actions.foldlM (fun s a => a s) s

/-- Where an operation stands once its first `n` actions are done, or once it waits for one of them for ever: the events
already performed have happened, and nothing has been answered (R11, R70). -/
def afterActions (n : Nat) (actions : List Action) (s : State) : State :=
  match runAll (actions.take n) s with
  | .ok t => t
  | .error (.hang t) => t
  | .error (.raised _ t) => t

/-! ### One operation, from its first line to its outcome (R13) -/

/-- The state after an operation: it responded, or raised a cause, or waits for ever (R13, R70). -/
def settle : Except Stop (BitVec 8 × State) → State
  | .ok (d, s) => s.respond (responseWord false 0#2 d)
  | .error (.raised c s) => s.raise c
  | .error (.hang s) => { s with hung := true }

/-- An operation: `if FAULT == 1: raise Faulted`, else its body, which ends with the data it responds with. -/
def perform (body : State → Except Stop (BitVec 8 × State)) (s : State) : Host.Outcome State Fault Refusal :=
  .next (if s.fault then s.raise .faulted else settle (body s))

/-- End a body with `respond(0x00)` (R88: "it has no return value but a defined side effect"). -/
def thenZero (r : Except Stop State) : Except Stop (BitVec 8 × State) := do
  let s ← r
  .ok (0x00#8, s)

end Sys2Proof.Machine
end

