-- ==== Sys2Proof/Machine/Battery.lean ====
section
/-! DEFINITION. The battery threshold sampler (43_battery_monitor.md): `SAMPLE`. -/

namespace Sys2Proof.Machine

/-- The one action of `SAMPLE`: its read (R161). -/
def sampleActions : List Action := [fun s => do
  let (_, s) ← inputRead s
  .ok s]

/-- `SAMPLE`: one read, `zext_8(w[15:11])` (R161, R162). -/
def execSample (s : State) : Host.Outcome State Fault Refusal :=
  perform (fun s => do
    let (w, s) ← inputRead s
    .ok ((battField w).setWidth 8, s)) s

end Sys2Proof.Machine
end

