-- ==== Sys2Proof/Machine/Display.lean ====
section
/-! DEFINITION. The display driver (42_display_driver.md): `WRITE_AT`, `CLEAR_ALL`, `RENDER_TRAILING`,
`RENDER_RESULT`. Every one is a sequence of `put`s (R145) and of the buffer reads before them. -/

namespace Sys2Proof.Machine

/-- `put(p, BLANK)` for each of the given positions, in their order (R142). -/
def blankActions (ps : List Digit) : List Action := ps.map fun p => put p blank

/-- Read a character of `BUF`, then show it at a position (R143, R144). The host changes `BUF` between commands only
(R53), so the character shown is the one read. -/
def charActions (a : BufAddr) (p : Digit) : List Action := [bufRead a, fun s => put p (encodeChar s.cfg (s.buf.read a)) s]

/-- The character actions of `RENDER_TRAILING`: the newest character first, at position 0 (R143). -/
def tailActions (base : BufAddr) (len : Len) : List Action :=
  (digits.take (window len)).flatMap fun i => charActions (trailingAddr base len i) i

/-- `RENDER_TRAILING`'s actions: with `len = 0` those of `CLEAR_ALL`; else the characters, then blanks in the positions
the window does not reach if `TRAILING_BLANK_FILL` (R143). -/
def trailingActions (fill : Bool) (base : BufAddr) (len : Len) : List Action :=
  if len.val = 0 then blankActions digits
  else tailActions base len ++ (if fill then blankActions (digits.drop (window len)) else [])

/-- The actions of `RENDER_RESULT`: the first character at position 5, then downward (R144). -/
def resultActions (base : BufAddr) (len : Len) : List Action :=
  (digits.take (window len)).flatMap fun i => charActions (resultAddr base i) (resultDigit i)

/-- The one action of `WRITE_AT` on a position 0..5; on any other it makes no access (R141, R177). -/
def writeActions (ch : CharCode) (pos : Pos) : List Action :=
  if h : pos.val ≤ 5 then [fun s => put ⟨pos.val, by omega⟩ (encodeChar s.cfg ch) s] else []

/-- `WRITE_AT`'s body: `if pos > 5: raise PositionRange(pos)`, before any access (R141, R177). -/
def writeAt (ch : CharCode) (pos : Pos) (s : State) : Except Stop State :=
  if 5 < pos.val then .error (.raised (.positionRange pos) s) else runAll (writeActions ch pos) s

/-- `WRITE_AT ch, pos` (R141). -/
def execWriteAt (ch : CharCode) (pos : Pos) (s : State) : Host.Outcome State Fault Refusal :=
  perform (fun s => thenZero (writeAt ch pos s)) s

/-- `CLEAR_ALL` (R142). -/
def execClearAll (s : State) : Host.Outcome State Fault Refusal :=
  perform (fun s => thenZero (runAll (blankActions digits) s)) s

/-- `RENDER_TRAILING base, len` (R143). -/
def execRenderTrailing (base : BufAddr) (len : Len) (s : State) : Host.Outcome State Fault Refusal :=
  perform (fun s => thenZero (runAll (trailingActions s.cfg.trailingBlankFill base len) s)) s

/-- `RENDER_RESULT base, len` (R144); with `len = 0` it does nothing (R144(a), 92 D21). -/
def execRenderResult (base : BufAddr) (len : Len) (s : State) : Host.Outcome State Fault Refusal :=
  perform (fun s => thenZero (runAll (resultActions base len) s)) s

end Sys2Proof.Machine
end

