-- ==== Sys2Proof/Machine/Encoder.lean ====
section
/-! DEFINITION. The character encoder (41_display_encoder.md): `ENCODE`. -/

namespace Sys2Proof.Machine

/-- `ENCODE ch` (R132). -/
def execEncode (ch : CharCode) (s : State) : Host.Outcome State Fault Refusal :=
  perform (fun s => .ok (encodeChar s.cfg ch, s)) s

end Sys2Proof.Machine
end

