-- ==== Sys2Proof/Machine/Keypad.lean ====
section
/-! DEFINITION. The keypad scanner (40_keypad_scanner.md): `SCAN`, `IS_PRESSED`, `JUST_PRESSED`, `JUST_RELEASED`. -/

namespace Sys2Proof.Machine

/-- One cell of a scanned row: `PREV[r][c] <- CUR[r][c]` first, `CUR[r][c] <- (w[5+c] == COL_POL)` second (R112, R205). -/
def sampleCell (r : Row) (w : Word) (s : State) (c : Col) : State :=
  let s := { s with prev := s.prev.setCell r c (s.cur.cell r c) }
  { s with cur := s.cur.setCell r c (columnAsserted w c) }

/-- The four cells of a row from one sampled word (R112). -/
def sampleRow (r : Row) (w : Word) (s : State) : State := columns.foldl (sampleCell r w) s

/-- Assert the line of row `r` (R112). -/
def selectRow (r : Row) : Action := fun s => rowWrite (s.cfg.rowPat[r].setWidth 32) s

/-- Read the columns, and copy and fill the cells of row `r` (R112). -/
def readRow (r : Row) : Action := fun s => do
  let (w, s) ← inputRead s
  .ok (sampleRow r w s)

/-- Leave no row asserted (R112, R207). -/
def releaseRows : Action := rowWrite 0#32

/-- One row of a scan: select, sample, copy, release (R112). -/
def rowActions (r : Row) : List Action := [selectRow r, readRow r, releaseRows]

/-- The twelve actions of `SCAN`, row by row (R112). -/
def scanActions : List Action := rows.flatMap rowActions

/-- `SCAN` (R112). -/
def execScan (s : State) : Host.Outcome State Fault Refusal :=
  perform (fun s => thenZero (runAll scanActions s)) s

/-- `IS_PRESSED row, col` (R113). -/
def execIsPressed (row : Row) (col : Col) (s : State) : Host.Outcome State Fault Refusal :=
  perform (fun s => .ok (boolData (s.pressed row col), s)) s

/-- `JUST_PRESSED row, col` (R114). -/
def execJustPressed (row : Row) (col : Col) (s : State) : Host.Outcome State Fault Refusal :=
  perform (fun s => .ok (boolData (s.justPressed row col), s)) s

/-- `JUST_RELEASED row, col` (R115). -/
def execJustReleased (row : Row) (col : Col) (s : State) : Host.Outcome State Fault Refusal :=
  perform (fun s => .ok (boolData (s.justReleased row col), s)) s

end Sys2Proof.Machine
end

