-- ==== Sys2Proof/Syntax.lean ====
section
/-! DEFINITION. The ten operations of the command set CMD-1 (30_encoding.md R82), one constructor per row of
spec/opcode_table.json, operands in the order of R82. -/

namespace Sys2Proof

/-- An operation with its operands. Every operand type holds exactly the values its field can spell (R83 to R87). -/
inductive Instr where
  /-- `SCAN` (R112). -/
  | scan
  /-- `IS_PRESSED row, col` (R113). -/
  | isPressed (row : Row) (col : Col)
  /-- `JUST_PRESSED row, col` (R114). -/
  | justPressed (row : Row) (col : Col)
  /-- `JUST_RELEASED row, col` (R115). -/
  | justReleased (row : Row) (col : Col)
  /-- `ENCODE ch` (R132). -/
  | encode (ch : CharCode)
  /-- `WRITE_AT ch, pos` (R141). -/
  | writeAt (ch : CharCode) (pos : Pos)
  /-- `CLEAR_ALL` (R142). -/
  | clearAll
  /-- `RENDER_TRAILING base, len` (R143). -/
  | renderTrailing (base : BufAddr) (len : Len)
  /-- `RENDER_RESULT base, len` (R144). -/
  | renderResult (base : BufAddr) (len : Len)
  /-- `SAMPLE` (R161). -/
  | sample
  deriving DecidableEq, Repr

/-- The name of an operation in the table of R82. -/
inductive Mnemonic where
  | scan | isPressed | justPressed | justReleased | encode
  | writeAt | clearAll | renderTrailing | renderResult | sample
  deriving DecidableEq, Repr

/-- The operation an instruction spells. -/
def Instr.mnemonic : Instr → Mnemonic
  | .scan => .scan
  | .isPressed _ _ => .isPressed
  | .justPressed _ _ => .justPressed
  | .justReleased _ _ => .justReleased
  | .encode _ => .encode
  | .writeAt _ _ => .writeAt
  | .clearAll => .clearAll
  | .renderTrailing _ _ => .renderTrailing
  | .renderResult _ _ => .renderResult
  | .sample => .sample

end Sys2Proof
end

