-- ==== Sys2Proof/Machine/Dispatch.lean ====
section
/-! DEFINITION. The meaning of each operation of 30_encoding.md R82, one arm per constructor. -/

namespace Sys2Proof.Machine

def exec (i : Instr) (s : State) : Host.Outcome State Fault Refusal :=
  match i with
  | .scan => Sys2Proof.Machine.execScan s
  | .isPressed row col => Sys2Proof.Machine.execIsPressed row col s
  | .justPressed row col => Sys2Proof.Machine.execJustPressed row col s
  | .justReleased row col => Sys2Proof.Machine.execJustReleased row col s
  | .encode ch => Sys2Proof.Machine.execEncode ch s
  | .writeAt ch pos => Sys2Proof.Machine.execWriteAt ch pos s
  | .clearAll => Sys2Proof.Machine.execClearAll s
  | .renderTrailing base len => Sys2Proof.Machine.execRenderTrailing base len s
  | .renderResult base len => Sys2Proof.Machine.execRenderResult base len s
  | .sample => Sys2Proof.Machine.execSample s

end Sys2Proof.Machine
end

