-- ==== Sys2Proof/WellFormed.lean ====
section
/-! DEFINITION. What a well-formed command word is, as the mask and match table of 30_encoding.md R90 says it
(transcribed on its own, so that the decoder, written from the formats R83 to R87, can be held against it); and which
operations lie in the document's stated domain (60_exceptions.md R171, 90_conflicts.md C7). -/

namespace Sys2Proof

/-- A row of the decode table R90: a word `w` belongs to it when `w & mask = pattern`. -/
structure CommandRow where
  mnemonic : Mnemonic
  pattern : Word
  mask : Word
  deriving DecidableEq, Repr

/-- The decode table R90, row by row (its column `match` is `pattern` here). -/
def commandTable : List CommandRow := [
  ⟨.scan,           0x10000000#32, 0xFFFFFFFF#32⟩,
  ⟨.isPressed,      0x20000000#32, 0xFFFFFFF0#32⟩,
  ⟨.justPressed,    0x30000000#32, 0xFFFFFFF0#32⟩,
  ⟨.justReleased,   0x40000000#32, 0xFFFFFFF0#32⟩,
  ⟨.encode,         0x50000000#32, 0xFFFFFF00#32⟩,
  ⟨.writeAt,        0x60000000#32, 0xFFFFF800#32⟩,
  ⟨.clearAll,       0x70000000#32, 0xFFFFFFFF#32⟩,
  ⟨.renderTrailing, 0x80000000#32, 0xF0000000#32⟩,
  ⟨.renderResult,   0x90000000#32, 0xF0000000#32⟩,
  ⟨.sample,         0xA0000000#32, 0xFFFFFFFF#32⟩]

/-- `w & mask = match`. -/
def CommandRow.covers (row : CommandRow) (w : Word) : Bool := w &&& row.mask == row.pattern

/-- A word is well-formed when it spells an operation: it matches a row of R90. Every other word is reserved (R91). -/
def Word.wellFormed (w : Word) : Bool := commandTable.any (·.covers w)

/-- The operand types hold only encodable values, so every `Instr` has a command word; what is left to check is the
document's stated domain: a position of `WRITE_AT` is 0..5 (R141, R212). `WRITE_AT` with position 6 or 7 is still an
operation with a meaning (it faults, R171). -/
def Instr.inDomain : Instr → Bool
  | .writeAt _ pos => decide (pos.val ≤ 5)
  | .scan | .isPressed _ _ | .justPressed _ _ | .justReleased _ _ | .encode _ => true
  | .clearAll | .renderTrailing _ _ | .renderResult _ _ | .sample => true

end Sys2Proof
end

