-- ==== Sys2Proof/Decode.lean ====
section
/-! DEFINITION. The decoder (30_encoding.md R82 to R91), total on all 2^32 words and reading no state, and the encoder,
both written from the formats N, K, C, P, B. -/

namespace Sys2Proof

/-- Why a word is reserved (R91). -/
inductive Reserved where
  /-- R91(a): `op` is 0x0 or 0xB to 0xF. -/
  | opcode (op : BitVec 4)
  /-- R91(b): a legal `op` with a non-zero bit in a `zero` field. -/
  | zeroField (op : BitVec 4)
  deriving DecidableEq, Repr

/-- `op`, bits 31:28 (R82). -/
def opField (w : Word) : BitVec 4 := w.extractLsb' 28 4

/-- `row`, bits 3:2 (R84, R89). -/
def rowField (w : Word) : Row := (w.extractLsb' 2 2).toFin

/-- `col`, bits 1:0 (R84, R89). -/
def colField (w : Word) : Col := (w.extractLsb' 0 2).toFin

/-- `ch`, bits 7:0 (R85, R86, R89). -/
def chField (w : Word) : CharCode := w.extractLsb' 0 8

/-- `pos`, bits 10:8 (R86, R89). -/
def posField (w : Word) : Pos := (w.extractLsb' 8 3).toFin

/-- `len`, bits 27:16 (R87, R89). -/
def lenField (w : Word) : Len := (w.extractLsb' 16 12).toFin

/-- `base`, bits 15:0 (R87, R89). -/
def baseField (w : Word) : BufAddr := w.extractLsb' 0 16

/-- Format N: `zero` is bits 27:0 (R83). -/
def formatN (w : Word) (i : Instr) : Except Reserved Instr :=
  if w.extractLsb' 0 28 = 0#28 then .ok i else .error (.zeroField (opField w))

/-- Format K: `zero` is bits 27:4 (R84). -/
def formatK (w : Word) (i : Instr) : Except Reserved Instr :=
  if w.extractLsb' 4 24 = 0#24 then .ok i else .error (.zeroField (opField w))

/-- Format C: `zero` is bits 27:8 (R85). -/
def formatC (w : Word) (i : Instr) : Except Reserved Instr :=
  if w.extractLsb' 8 20 = 0#20 then .ok i else .error (.zeroField (opField w))

/-- Format P: `zero` is bits 27:11 (R86). -/
def formatP (w : Word) (i : Instr) : Except Reserved Instr :=
  if w.extractLsb' 11 17 = 0#17 then .ok i else .error (.zeroField (opField w))

/-- The decoder (R82, R90, R91). -/
def decode (w : Word) : Except Reserved Instr :=
  match opField w with
  | 0x1#4 => formatN w .scan
  | 0x2#4 => formatK w (.isPressed (rowField w) (colField w))
  | 0x3#4 => formatK w (.justPressed (rowField w) (colField w))
  | 0x4#4 => formatK w (.justReleased (rowField w) (colField w))
  | 0x5#4 => formatC w (.encode (chField w))
  | 0x6#4 => formatP w (.writeAt (chField w) (posField w))
  | 0x7#4 => formatN w .clearAll
  | 0x8#4 => .ok (.renderTrailing (baseField w) (lenField w))
  | 0x9#4 => .ok (.renderResult (baseField w) (lenField w))
  | 0xA#4 => formatN w .sample
  | op => .error (.opcode op)

/-- A word of format N (R83). -/
def wordN (op : BitVec 4) : Word := op ++ 0#28

/-- A word of format K (R84). -/
def wordK (op : BitVec 4) (row : Row) (col : Col) : Word :=
  op ++ 0#24 ++ (BitVec.ofFin row : BitVec 2) ++ (BitVec.ofFin col : BitVec 2)

/-- A word of format C (R85). -/
def wordC (op : BitVec 4) (ch : CharCode) : Word := op ++ 0#20 ++ ch

/-- A word of format P (R86). -/
def wordP (op : BitVec 4) (pos : Pos) (ch : CharCode) : Word :=
  op ++ 0#17 ++ (BitVec.ofFin pos : BitVec 3) ++ ch

/-- A word of format B (R87). -/
def wordB (op : BitVec 4) (len : Len) (base : BufAddr) : Word :=
  op ++ (BitVec.ofFin len : BitVec 12) ++ base

/-- The command word of an operation (R82 to R87). -/
def encode : Instr → Word
  | .scan => wordN 0x1#4
  | .isPressed row col => wordK 0x2#4 row col
  | .justPressed row col => wordK 0x3#4 row col
  | .justReleased row col => wordK 0x4#4 row col
  | .encode ch => wordC 0x5#4 ch
  | .writeAt ch pos => wordP 0x6#4 pos ch
  | .clearAll => wordN 0x7#4
  | .renderTrailing base len => wordB 0x8#4 len base
  | .renderResult base len => wordB 0x9#4 len base
  | .sample => wordN 0xA#4

/-- The command word that a table row's `nbits` bits spell, every bit above them 0 (log 15). -/
def tableWord (nbits w : Nat) : Word := BitVec.ofNat 32 (w % 2 ^ nbits)

/-- The instruction the decoder reads from a row of spec/opcode_table.json. Every command is 32 bits (R93). -/
def decodeTableWord (nbits w : Nat) : Option Instr :=
  match decode (tableWord nbits w) with
  | .ok i => some i
  | .error _ => none

end Sys2Proof
end

