-- ==== Sys2Proof/Machine/Actions.lean ====
section
/-! DEFINITION. The actions of each operation, one for each event of its trace (00_scope.md R11): where a Reset can find
it (70_reset_and_hazards.md R200). -/

namespace Sys2Proof.Machine

/-- The actions of an operation that is accepted in state `s`, in their order. The queries, `ENCODE`, and `WRITE_AT` with
position 6 or 7 perform no event. -/
def actions (i : Instr) (s : State) : List Action :=
  match i with
  | .scan => scanActions
  | .isPressed _ _ => []
  | .justPressed _ _ => []
  | .justReleased _ _ => []
  | .encode _ => []
  | .writeAt ch pos => writeActions ch pos
  | .clearAll => blankActions digits
  | .renderTrailing base len => trailingActions s.cfg.trailingBlankFill base len
  | .renderResult base len => resultActions base len
  | .sample => sampleActions

end Sys2Proof.Machine
end

