-- ==== Sys2Proof/Machine/Port.lean ====
section
/-! DEFINITION. The command port (30_encoding.md R80, R81): what the block does with each stimulus. `run` is the meaning
of an operation; `step` supplies `exec`. -/

namespace Sys2Proof.Machine

/-- What the block does with a command word, in the order of 60_exceptions.md R175: a faulted block refuses it before it
is decoded, else a reserved word is refused, else the operation it spells runs. -/
def acceptCommand (run : Instr → State → Host.Outcome State Fault Refusal) (cmd : Word) (s : State) :
    Host.Outcome State Fault Refusal :=
  if s.fault then .next (s.raise .faulted)
  else
    match decode cmd with
    | .error _ => .next (s.raise (.reservedCommand cmd))
    | .ok i => run i s

/-- Where a command word that the block is given stands after its first `n` events, not yet answered: a refused word
performs none (R172, R173). -/
def midCommand (cmd : Word) (n : Nat) (s : State) : State :=
  if s.fault then s
  else
    match decode cmd with
    | .error _ => s
    | .ok i => afterActions n (actions i s) s

/-- A Reset, alone or during the operation of a command word after any number of its events; with more events than the
operation has, after its last and before its response (R200, log 7). A block whose operation never ends accepts no
command, so there the Reset ends that operation (R81). -/
def acceptReset (during : Option (Word × Nat)) (s : State) : State :=
  match during with
  | none => s.resetEvent
  | some (cmd, n) => if s.hung then s.resetEvent else (midCommand cmd n s).resetEvent

/-- One stimulus. With nothing at the port the block idles (R186, R200). A Reset can occur at any time (R200). While an
operation is in progress for ever the host waits, and nothing but a Reset is looked at (R81, R187, log 18). -/
def nextStimulus (run : Instr → State → Host.Outcome State Fault Refusal) (s : State) :
    Host.Outcome State Fault Refusal :=
  match s.port with
  | [] => .next s
  | .reset during :: rest => .next (acceptReset during { s with port := rest })
  | .store a ch :: rest => .next (if s.hung then s else { s with port := rest }.storeByte a ch)
  | .command cmd :: rest => if s.hung then .next s else acceptCommand run cmd { s with port := rest }

/-- The host presents a command word next, to a block that is running no operation (log 15). -/
def State.present (cmd : Word) (s : State) : State :=
  { s with port := .command cmd :: s.port, hung := false }

end Sys2Proof.Machine
end

