-- ==== Sys2Proof/Machine/Step.lean ====
section
/-! DEFINITION. One step of the machine: one stimulus at the command port (30_encoding.md R80, R81). -/

namespace Sys2Proof.Machine

/-- One step: the next stimulus, the operations having the meanings of `exec`. -/
def step (s : State) : Host.Outcome State Fault Refusal := nextStimulus exec s

/-- `s` with the command word of a table row at the head of the port (log 15). -/
def State.withFetchWord (s : State) (nbits w : Nat) : State := s.present (tableWord nbits w)

end Sys2Proof.Machine
end

