-- ==== Sys2Proof/Machine/Bus.lean ====
section
/-! DEFINITION. The register map (10_state.md R30; 20_memory.md R50, R61, R63): which location each event reaches, and
which locations the block may reach. No meaning reads it: the block addresses its registers by name (R51). -/

namespace Sys2Proof.Machine

/-- The four address spaces (R50). -/
inductive Space where
  | g0 | dlo | dhi | buf
  deriving DecidableEq, Repr

/-- One access: where, how wide, and whether it writes (R50, R61). -/
structure Access where
  space : Space
  offset : Nat
  bytes : Nat
  write : Bool
  deriving DecidableEq, Repr

/-- The access an event is (R54 to R57). -/
def Event.access (cfg : Config) : Event → Access
  | .rowSel _ => ⟨.g0, cfg.offOut, 4, true⟩
  | .inRead _ => ⟨.g0, Config.offIn, 4, false⟩
  | .dispWrite .lo k _ => ⟨.dlo, k.val, 1, true⟩
  | .dispWrite .hi k _ => ⟨.dhi, k.val, 1, true⟩
  | .bufRead a _ => ⟨.buf, a.toNat, 1, false⟩

/-- The registers of R30, each with the one access the block makes of it. -/
def registerMap (cfg : Config) : List Access := [
  ⟨.g0, cfg.offOut, 4, true⟩, ⟨.g0, Config.offIn, 4, false⟩,
  ⟨.dlo, 0, 1, true⟩, ⟨.dlo, 1, 1, true⟩, ⟨.dlo, 2, 1, true⟩, ⟨.dlo, 3, 1, true⟩,
  ⟨.dhi, 0, 1, true⟩, ⟨.dhi, 1, 1, true⟩]

/-- A location the block may reach: a register of R30 or a byte of `BUF`, read (R50). -/
def Access.allowed (cfg : Config) (a : Access) : Prop :=
  a ∈ registerMap cfg ∨ (a.space = .buf ∧ a.offset < 65536 ∧ a.bytes = 1 ∧ a.write = false)

/-- The bus address of an access of a GPIO block (R63); `BUF` is the host's and has none. -/
def Access.busAddress (cfg : Config) (a : Access) : Option Nat :=
  match a.space with
  | .g0 => some (cfg.baseG0 + a.offset)
  | .dlo => some (cfg.baseDlo + a.offset)
  | .dhi => some (cfg.baseDhi + a.offset)
  | .buf => none

end Sys2Proof.Machine
end

