-- ==== Sys2Proof/Safety.lean ====
section
/-! DEFINITION. The terms claims use: the premises the spec names (20_memory.md R70 `BusResponsive`, 93 U9
`IdealKeypad`), what a good end of a run is (70_reset_and_hazards.md R215), what the trace says of the state
(00_scope.md R11), which events and responses are legal, and the invariant of the machine. -/

namespace Sys2Proof.Machine

/-- `BusResponsive`: every register access completes (R70). -/
def State.BusResponsive (s : State) : Prop := s.bus.all id = true

/-- The next `n` register accesses complete. -/
def State.busAnswers (s : State) (n : Nat) : Bool := (s.bus.take n).all id

/-- The word the `k`-th coming read of `G0.IN` returns (R12). -/
def State.upcoming (s : State) (k : Nat) : Word :=
  s.inputs.getD k (Config.freeInput (s.draws + (k - s.inputs.length)))

/-- How many of the next `n` reads of `G0.IN` find no word in `inputs`. -/
def State.freeDraws (s : State) (n : Nat) : Nat := n - s.inputs.length

/-- A good end of a run: no fault was recorded, and no operation is in progress for ever (R215). -/
def State.GoodEnd (s : State) : Prop := s.fault = false ∧ s.hung = false

/-- The twelve events of a scan whose reads return `w r` (R112). -/
def scanTrace (cfg : Config) (w : Row → Word) : List Event :=
  rows.flatMap fun r => [.rowSel cfg.rowPat[r], .inRead (w r), .rowSel 0b0000#4]

/-- The event of showing pattern `v` at position `p` (R145). -/
def putEvent (p : Digit) (v : Pattern) : Event := .dispWrite (half p) (offset p) v

/-- The six events of a clear (R142). -/
def clearTrace : List Event := digits.map fun p => putEvent p blank

/-- The character `RENDER_TRAILING` shows at position `i` (R143). -/
def trailingChar (s : State) (base : BufAddr) (len : Len) (i : Digit) : CharCode :=
  s.buf.read (charAddr base (len.val - 1 - i.val))

/-- The character `RENDER_RESULT` shows at position `5 - i` (R144). -/
def resultChar (s : State) (base : BufAddr) (i : Digit) : CharCode := s.buf.read (charAddr base i.val)

/-- The events of `RENDER_TRAILING` for `len > 0` (R143). -/
def trailingTrace (s : State) (base : BufAddr) (len : Len) : List Event :=
  ((digits.take (min 6 len.val)).flatMap fun i =>
    [.bufRead (charAddr base (len.val - 1 - i.val)) (trailingChar s base len i),
     putEvent i (encodeChar s.cfg (trailingChar s base len i))]) ++
  (if s.cfg.trailingBlankFill then (digits.drop (min 6 len.val)).map fun p => putEvent p blank else [])

/-- The events of `RENDER_RESULT` (R144). -/
def resultTrace (s : State) (base : BufAddr) (len : Len) : List Event :=
  (digits.take (min 6 len.val)).flatMap fun i =>
    [.bufRead (charAddr base i.val) (resultChar s base i),
     putEvent ⟨5 - i.val, by omega⟩ (encodeChar s.cfg (resultChar s base i))]

/-- What `ROWSEL` holds after some events (R54). -/
def replayRowsel (v : Nibble) (events : List Event) : Nibble :=
  events.foldl (fun v e => match e with | .rowSel x => x | _ => v) v

/-- What the latches hold after some events (R56). -/
def replayDisp (disp : Vector Pattern 6) (events : List Event) : Vector Pattern 6 :=
  events.foldl (fun d e =>
    match e with
    | .dispWrite h k v =>
      match latchAt h k with
      | some p => d.set p v
      | none => d
    | _ => d) disp

/-- The optional premise `IdealKeypad` (93 U9, from general knowledge, log 22), on the events by which `t` comes after `s`:
every read of the pins made while `ROWSEL = ROW_PAT(r)` shows in bit `5 + c` whether key `(r, c)` is held at that
instant. `K n` is the keys held once `n` of the events are done. -/
def IdealKeypad (K : Nat → Grid) (s t : State) : Prop :=
  ∀ (done rest : List Event) (w : Word) (r : Row),
    t.trace = s.trace ++ done ++ .inRead w :: rest → replayRowsel s.rowsel done = s.cfg.rowPat[r] →
    ∀ c : Col, w.getLsbD (5 + c.val) = (K done.length).cell r c

/-- The optional premise `KeysStable` (93 U9, log 22): the keys held do not change. -/
def KeysStable (K : Nat → Grid) : Prop := ∀ n, K n = K 0

/-- How many reads of `G0.IN` some events hold. -/
def countReads (events : List Event) : Nat :=
  events.countP fun e => match e with | .inRead _ => true | _ => false

/-- How many accesses of `G0`, `DLO` or `DHI` some events are: all but the reads of `BUF` (R70). -/
def countAccesses (events : List Event) : Nat :=
  events.countP fun e => match e with | .bufRead _ _ => false | _ => true

/-- An event the block may perform (R35): `ROWSEL` is written with `0b0000` or a value of `ROW_PAT` only, a latch with a
value of `encode` only, and bytes 2 and 3 of `DHI` never (R34). -/
def Event.Legal (cfg : Config) : Event → Prop
  | .rowSel v => v = 0b0000#4 ∨ v ∈ cfg.rowPat.toList
  | .dispWrite h k v => (latchAt h k).isSome = true ∧ ∃ ch, v = encodeChar cfg ch
  | .inRead _ => True
  | .bufRead _ _ => True

/-- A response word the spec allows (R88): `ERR = 0` with `CODE = 0` and 8 bits of data, or one of three error words. -/
def legalResponse (w : Word) : Prop :=
  (∃ d : BitVec 8, w = d.setWidth 32) ∨ w = 0x80010000#32 ∨ w = 0x80020000#32 ∨ w = 0x80030000#32

/-- The invariant: the parameters meet their constraints (R7), the buffer is in canonical form (R53), every event so far
is one the block may perform (R35), every response so far is one the spec allows (R88). -/
structure State.Inv (s : State) : Prop where
  params : s.cfg.wf = true
  buffer : Memory.wf s.buf
  events : ∀ e ∈ s.trace, e.Legal s.cfg
  answers : ∀ w ∈ s.responses, legalResponse w

end Sys2Proof.Machine
end

