-- ==== Sys2Proof/Certificates/Slice0/Obligations.lean ====
section
/-! DEFINITION. The statements about the machine, each from the numbered rules of spec/. Every one ranges over all
states, so over every configuration (`s.cfg`), every answer of the pins (`s.inputs`, then free draws), every behaviour
of the bus (`s.bus`) and every content of the buffer (`s.buf`). -/

open Sys2Proof Sys2Proof.Machine

/-! ### Encoding -/

/-- R82 to R90: no bit of an operation is lost on its way through its command word. -/
def Obligations.DecodeOfEncodeIsTheOperation : Prop :=
  ∀ i : Instr, decode (encode i) = .ok i

/-- R83 to R91: a word that decodes is exactly the word its operation encodes to. -/
def Obligations.EncodeOfDecodeIsTheWord : Prop :=
  ∀ (w : Word) (i : Instr), decode w = .ok i → encode i = w

/-- R90: each word matches exactly one row of the mask and match table, that of the operation it decodes to, or it
matches none and is reserved. -/
def Obligations.DecoderAgreesWithMaskMatchTable : Prop :=
  ∀ w : Word,
    (commandTable.filter (·.covers w)).map (·.mnemonic) =
      match decode w with
      | .ok i => [i.mnemonic]
      | .error _ => []

/-- R91: exactly the words of (a) and (b) are reserved; a reserved word is refused with response 0x80020000, without an
event or a change of state, and the block is ready for the next command; `WRITE_AT` with position 6 or 7 is not
reserved: it decodes, and faults. -/
def Obligations.ReservedWordsAreExactlyThoseRefused : Prop :=
  (∀ w : Word,
    (∃ e, decode w = .error e) ↔
      (w.extractLsb' 28 4 ∈ [0x0#4, 0xB#4, 0xC#4, 0xD#4, 0xE#4, 0xF#4]) ∨
      (w.extractLsb' 28 4 ∈ [0x1#4, 0x7#4, 0xA#4] ∧ w.extractLsb' 0 28 ≠ 0#28) ∨
      (w.extractLsb' 28 4 ∈ [0x2#4, 0x3#4, 0x4#4] ∧ w.extractLsb' 4 24 ≠ 0#24) ∨
      (w.extractLsb' 28 4 = 0x5#4 ∧ w.extractLsb' 8 20 ≠ 0#20) ∨
      (w.extractLsb' 28 4 = 0x6#4 ∧ w.extractLsb' 11 17 ≠ 0#17)) ∧
  (∀ (ch : CharCode) (pos : Pos), decode (encode (.writeAt ch pos)) = .ok (.writeAt ch pos)) ∧
  (∀ (ch : CharCode) (pos : Pos) (s : State), s.fault = false → 5 < pos.val →
    exec (.writeAt ch pos) s = .next { s with fault := true, responses := s.responses ++ [0x80010000#32] }) ∧
  (∀ (s : State) (w : Word) (rest : List Stimulus),
    s.port = .command w :: rest → s.hung = false → s.fault = false → (∃ e, decode w = .error e) →
    step s = .next { s with port := rest, responses := s.responses ++ [0x80020000#32] })

/-- R90's own examples, and V9a and V9b of 95_test_vectors.md: the words decode to the operations they stand for. -/
def Obligations.ExampleWordsDecode : Prop :=
  decode 0x10000000#32 = .ok .scan ∧
  decode 0x2000000B#32 = .ok (.isPressed 2 3) ∧
  decode 0x60000437#32 = .ok (.writeAt 0x37#8 4) ∧
  decode 0x50000078#32 = .ok (.encode 0x78#8) ∧
  decode 0x80040100#32 = .ok (.renderTrailing 0x0100#16 4) ∧
  decode 0x90070200#32 = .ok (.renderResult 0x0200#16 7) ∧
  decode 0x9FFFFFFF#32 = .ok (.renderResult 0xFFFF#16 4095) ∧
  decode 0x4000000F#32 = .ok (.justReleased 3 3)

/-! ### The step -/

/-- R80, R81, R90: a block that runs nothing and is not faulted runs the operation the next command word spells. -/
def Obligations.StepRunsTheDecodedCommand : Prop :=
  ∀ (s : State) (w : Word) (rest : List Stimulus) (i : Instr),
    s.port = .command w :: rest → s.hung = false → s.fault = false → decode w = .ok i →
    step s = exec i { s with port := rest }

/-- Every step answers a next state: the spec lists no outcome that stops the machine (R13, R170; log 2). -/
def Obligations.EveryStepAnswersANextState : Prop :=
  (∀ s : State, ∃ t, step s = .next t) ∧ (∀ (i : Instr) (s : State), ∃ t, exec i s = .next t)

/-- R186, R200: with nothing at the port the block idles, and its idleness has no state. -/
def Obligations.BlockWithoutStimulusIdles : Prop :=
  (∀ s : State, s.port = [] → step s = .next s) ∧ step State.reset = .next State.reset

/-- R173: while `FAULT = 1` every command word, well-formed or reserved, is refused with response 0x80030000, without
an event or a change of state, and only Reset clears `FAULT`. -/
def Obligations.FaultedBlockRefusesEveryCommand : Prop :=
  (∀ (s : State) (w : Word) (rest : List Stimulus),
    s.port = .command w :: rest → s.hung = false → s.fault = true →
    step s = .next { s with port := rest, responses := s.responses ++ [0x80030000#32] }) ∧
  (∀ s t : State, step s = .next t → s.fault = true → t.fault = false → ∃ during rest, s.port = .reset during :: rest)

/-- R37: `FAULT` is 0 after reset, becomes 1 exactly when an accepted `WRITE_AT` carries a position outside 0..5, is
cleared by reset alone, and while it is 1 every command is refused. -/
def Obligations.FaultIsSetByOutOfRangePositionOnly : Prop :=
  State.reset.fault = false ∧
  (∀ s t : State, step s = .next t → s.fault = false →
    (t.fault = true ↔ s.hung = false ∧ ∃ (ch : CharCode) (pos : Pos) (rest : List Stimulus),
      s.port = .command (encode (.writeAt ch pos)) :: rest ∧ 5 < pos.val)) ∧
  (∀ s t : State, step s = .next t → s.fault = true → t.fault = false → ∃ during rest, s.port = .reset during :: rest) ∧
  (∀ (s : State) (during : Option (Word × Nat)) (rest : List Stimulus) (t : State),
    s.port = .reset during :: rest → step s = .next t → t.fault = false) ∧
  (∀ (s : State) (w : Word) (rest : List Stimulus),
    s.port = .command w :: rest → s.hung = false → s.fault = true →
    step s = .next { s with port := rest, responses := s.responses ++ [0x80030000#32] })

/-- R175: at most one abnormal outcome applies, in the order Faulted, ReservedCommand, PositionRange; a hang only after
all three checks have passed, at the first access that does not complete. -/
def Obligations.AbnormalOutcomesInOrder : Prop :=
  ∀ (s : State) (w : Word) (rest : List Stimulus), s.port = .command w :: rest → s.hung = false →
    (s.fault = true →
      step s = .next { s with port := rest, responses := s.responses ++ [0x80030000#32] }) ∧
    (s.fault = false → (∃ e, decode w = .error e) →
      step s = .next { s with port := rest, responses := s.responses ++ [0x80020000#32] }) ∧
    (∀ (ch : CharCode) (pos : Pos), s.fault = false → decode w = .ok (.writeAt ch pos) → 5 < pos.val →
      step s = .next { s with port := rest, fault := true, responses := s.responses ++ [0x80010000#32] }) ∧
    (∀ t : State, step s = .next t → t.hung = true →
      s.fault = false ∧ (∃ i, decode w = .ok i ∧ i.inDomain = true) ∧
      ∃ k, s.bus = List.replicate k true ++ false :: t.bus)

/-- R200: Reset can occur at any time, aborts an operation in progress without a response, leaves the grids all false
and `FAULT` 0 (`ROWSEL` and `DISP` unspecified), and alone clears `FAULT`; after reset the block idles. -/
def Obligations.ResetAbortsAndClears : Prop :=
  (∀ (s : State) (during : Option (Word × Nat)) (rest : List Stimulus), s.port = .reset during :: rest →
    ∃ t, step s = .next t ∧ t.port = rest ∧ t.responses = s.responses ∧ t.hung = false ∧ t.fault = false ∧
      ∀ (r : Row) (c : Col), t.cur.cell r c = false ∧ t.prev.cell r c = false) ∧
  (∀ s t : State, step s = .next t → s.fault = true → t.fault = false → ∃ during rest, s.port = .reset during :: rest) ∧
  (∀ s : State, s.port = [] → step s = .next s)

/-- The frame of Reset, the model's choice (log 7): a Reset leaves the parameters and `BUF` as they were and takes back no
event; one that comes between operations adds none, and leaves the environment's side alone too. -/
def Obligations.ResetLeavesTheOutsideAlone : Prop :=
  ∀ (s t : State) (during : Option (Word × Nat)) (rest : List Stimulus), s.port = .reset during :: rest → step s = .next t →
    t.cfg = s.cfg ∧ (∀ a : BufAddr, t.buf.read a = s.buf.read a) ∧ (∃ events, t.trace = s.trace ++ events) ∧
    (during = none → t.trace = s.trace ∧ t.inputs = s.inputs ∧ t.bus = s.bus)

/-- R11, R14: an operation is a sequence of actions, one for each event; what follows them is the response alone, and a
hang is an action that never completes. It says where a Reset can find an operation (log 7). -/
def Obligations.ActionsMakeUpTheOperation : Prop :=
  ∀ (i : Instr) (s t : State), s.fault = false → i.inDomain = true → exec i s = .next t →
    ∃ events, t.trace = s.trace ++ events ∧
      ((∃ (u : State) (answer : Word), runAll (actions i s) s = .ok u ∧ t = u.respond answer ∧
          events.length = (actions i s).length) ∨
       (∃ u : State, runAll (actions i s) s = .error (.hang u) ∧ t = { u with hung := true } ∧
          events.length < (actions i s).length))

/-- R200, R81, R11: a Reset can cut the operation of a command word off after any number `n` of its events (`u` is where
the word leads without the Reset), on a bus that answers as on one that does not: the first `n` events stay, with their
draws; no later one happens, and no response comes. With `n` past the last event the Reset comes while the operation
waits for an access, or just before its response. -/
def Obligations.ResetCutsAnOperationOff : Prop :=
  ∀ (s t u : State) (w : Word) (n : Nat) (rest : List Stimulus),
    s.hung = false → step { s with port := .command w :: rest } = .next u →
    step { s with port := .reset (some (w, n)) :: rest } = .next t →
    ∃ events, u.trace = s.trace ++ events ∧
      t.trace = s.trace ++ events.take n ∧ t.inputs = s.inputs.drop (countReads (events.take n)) ∧
      (n ≤ events.length → t.bus = s.bus.drop (countAccesses (events.take n))) ∧
      (events.length < n → t.bus = u.bus) ∧
      t.responses = s.responses ∧ t.hung = false ∧ t.fault = false ∧ t.port = rest ∧
      ∀ (r : Row) (c : Col), t.cur.cell r c = false ∧ t.prev.cell r c = false

/-- R40: after reset both grids are all false, `FAULT` is 0 and the three edge predicates are all false. -/
def Obligations.ResetLeavesKeysIdle : Prop :=
  State.reset.fault = false ∧ State.reset.hung = false ∧
  ∀ (row : Row) (col : Col),
    State.reset.cur.cell row col = false ∧ State.reset.prev.cell row col = false ∧
    State.reset.pressed row col = false ∧ State.reset.justPressed row col = false ∧
    State.reset.justReleased row col = false

/-- R70, R81, R187: an operation whose access never completes never ends; whatever the host would do next waits, and
nothing but a Reset changes anything. -/
def Obligations.HungBlockWaitsForReset : Prop :=
  ∀ s : State, s.hung = true → (∀ during rest, s.port ≠ .reset during :: rest) → step s = .next s

/-- R80, R88: an accepted command is answered by exactly one legal response word, unless its operation hangs, and then
by none. -/
def Obligations.OneResponseForEachCommand : Prop :=
  ∀ (s t : State) (w : Word) (rest : List Stimulus),
    s.port = .command w :: rest → s.hung = false → step s = .next t →
    t.port = rest ∧
    ((t.hung = false ∧ ∃ r, legalResponse r ∧ t.responses = s.responses ++ [r]) ∨
     (t.hung = true ∧ t.responses = s.responses))

/-- R70, R96: given `BusResponsive`, every operation ends. -/
def Obligations.EveryOperationEndsOnResponsiveBus : Prop :=
  ∀ (s : State) (i : Instr), s.BusResponsive → s.hung = false →
    ∃ t, exec i s = .next t ∧ t.hung = false ∧ ∃ r, t.responses = s.responses ++ [r]

/-- R68, R53: no step writes `ROW_PAT`, `SEG` or any other parameter, and none but a store of the host's writes `BUF`. -/
def Obligations.TablesAreImmutableAndBufferIsTheHosts : Prop :=
  ∀ s t : State, step s = .next t →
    t.cfg = s.cfg ∧
    ((∀ (a : BufAddr) (ch : CharCode) (rest : List Stimulus), s.port ≠ .store a ch :: rest) → t.buf = s.buf)

/-- R53, R62: `BUF` is plain memory: the host's store is what a later read of that address returns, every other address
reads as before, and nothing of the block changes. -/
def Obligations.HostStoreIsReadBack : Prop :=
  ∀ (s : State) (a : BufAddr) (ch : CharCode) (rest : List Stimulus),
    s.port = .store a ch :: rest → s.hung = false →
    ∃ m : Memory, step s = .next { s with port := rest, buf := m } ∧
      m.read a = ch ∧ ∀ x : BufAddr, x ≠ a → m.read x = s.buf.read x

/-! ### The keypad scanner -/

/-- R112: `SCAN`. `w r` is the draw of row `r`. The twelve accesses complete, or the operation hangs. -/
def Obligations.ScanSamplesEveryRow : Prop :=
  encode .scan = 0x10000000#32 ∧
  ∀ s : State,
    (s.fault = false → s.busAnswers 12 = true →
      exec .scan s = .next { s with
        prev := s.cur
        cur := Grid.ofFn fun r c => (s.upcoming r.val).getLsbD (5 + c.val)
        rowsel := 0b0000#4
        inputs := s.inputs.drop 4
        draws := s.draws + s.freeDraws 4
        bus := s.bus.drop 12
        trace := s.trace ++ [
          .rowSel s.cfg.rowPat[0], .inRead (s.upcoming 0), .rowSel 0b0000#4,
          .rowSel s.cfg.rowPat[1], .inRead (s.upcoming 1), .rowSel 0b0000#4,
          .rowSel s.cfg.rowPat[2], .inRead (s.upcoming 2), .rowSel 0b0000#4,
          .rowSel s.cfg.rowPat[3], .inRead (s.upcoming 3), .rowSel 0b0000#4]
        responses := s.responses ++ [0x00000000#32] }) ∧
    (s.fault = true → exec .scan s = .next { s with responses := s.responses ++ [0x80030000#32] }) ∧
    (s.fault = false → s.busAnswers 12 = false →
      ∃ t, exec .scan s = .next t ∧ t.hung = true ∧ t.responses = s.responses)

/-- R118, R70: a scan whose access number `k` never completes leaves the rows whose read came before it with their new
values, the other rows with their old ones, and the first `k` events in the trace. -/
def Obligations.HungScanLeavesRowsSampledSoFar : Prop :=
  ∀ (s : State) (k : Nat) (rest : List Bool),
    s.fault = false → k < 12 → s.bus = List.replicate k true ++ false :: rest →
    ∃ t, exec .scan s = .next t ∧ t.hung = true ∧ t.responses = s.responses ∧
      t.trace = s.trace ++ (scanTrace s.cfg fun r => s.upcoming r.val).take k ∧
      t.disp = s.disp ∧ t.fault = false ∧ t.bus = rest ∧
      ∀ (r : Row) (c : Col),
        t.prev.cell r c = (if 3 * r.val + 2 ≤ k then s.cur.cell r c else s.prev.cell r c) ∧
        t.cur.cell r c =
          (if 3 * r.val + 2 ≤ k then (s.upcoming r.val).getLsbD (5 + c.val) else s.cur.cell r c)

/-- R113: `IS_PRESSED` answers `CUR[row][col]`, state unchanged, empty trace. -/
def Obligations.IsPressedAnswersTheCurrentCell : Prop :=
  ∀ (row : Row) (col : Col) (s : State),
    encode (.isPressed row col) =
      0x20000000#32 ||| (BitVec.ofNat 32 row.val <<< 2) ||| BitVec.ofNat 32 col.val ∧
    (s.fault = false → exec (.isPressed row col) s =
      .next { s with responses := s.responses ++ [if s.cur.cell row col = true then 1#32 else 0#32] }) ∧
    (s.fault = true → exec (.isPressed row col) s =
      .next { s with responses := s.responses ++ [0x80030000#32] })

/-- R114: `JUST_PRESSED` answers true exactly when `CUR` is true and `PREV` false, state unchanged, empty trace. -/
def Obligations.JustPressedAnswersThePressEdge : Prop :=
  ∀ (row : Row) (col : Col) (s : State),
    encode (.justPressed row col) =
      0x30000000#32 ||| (BitVec.ofNat 32 row.val <<< 2) ||| BitVec.ofNat 32 col.val ∧
    (s.fault = false → exec (.justPressed row col) s =
      .next { s with responses := s.responses ++
        [if s.cur.cell row col = true ∧ s.prev.cell row col = false then 1#32 else 0#32] }) ∧
    (s.fault = true → exec (.justPressed row col) s =
      .next { s with responses := s.responses ++ [0x80030000#32] })

/-- R115: `JUST_RELEASED` answers true exactly when `CUR` is false and `PREV` true, state unchanged, empty trace. -/
def Obligations.JustReleasedAnswersTheReleaseEdge : Prop :=
  ∀ (row : Row) (col : Col) (s : State),
    encode (.justReleased row col) =
      0x40000000#32 ||| (BitVec.ofNat 32 row.val <<< 2) ||| BitVec.ofNat 32 col.val ∧
    (s.fault = false → exec (.justReleased row col) s =
      .next { s with responses := s.responses ++
        [if s.cur.cell row col = false ∧ s.prev.cell row col = true then 1#32 else 0#32] }) ∧
    (s.fault = true → exec (.justReleased row col) s =
      .next { s with responses := s.responses ++ [0x80030000#32] })

/-- R116: the table of the three query answers for each pair (`PREV`, `CUR`), as responses. -/
def Obligations.EdgeAnswersFollowTheTable : Prop :=
  ∀ (row : Row) (col : Col) (s : State), s.fault = false →
    ∃ p e d : Word,
      exec (.isPressed row col) s = .next { s with responses := s.responses ++ [p] } ∧
      exec (.justPressed row col) s = .next { s with responses := s.responses ++ [e] } ∧
      exec (.justReleased row col) s = .next { s with responses := s.responses ++ [d] } ∧
      (p, e, d) =
        match s.prev.cell row col, s.cur.cell row col with
        | false, false => (0#32, 0#32, 0#32)
        | false, true => (1#32, 1#32, 0#32)
        | true, true => (1#32, 0#32, 0#32)
        | true, false => (0#32, 0#32, 1#32)

/-- R23: after a scan `PREV` is what `CUR` was before it, and no other operation changes either grid. -/
def Obligations.ScanIsTheOnlyMutatorOfTheGrids : Prop :=
  (∀ s t : State, s.fault = false → s.busAnswers 12 = true → exec .scan s = .next t → t.prev = s.cur) ∧
  (∀ (i : Instr) (s t : State), i ≠ .scan → exec i s = .next t → t.cur = s.cur ∧ t.prev = s.prev)

/-- R23, S1 of 95_test_vectors.md: whatever steps run in between, as long as none is a scan or a Reset, the next scan
finds in `CUR` what the last one left there, and copies it to `PREV`. -/
def Obligations.PreviousAfterNextScanIsCurrentAfterThis : Prop :=
  ∀ (n : Nat) (s t : State),
    Host.Core.run Sys2Proof.core n s = .next t →
    (∀ x ∈ s.port.take n, (∀ during, x ≠ .reset during) ∧ x ≠ .command (encode .scan)) →
    t.cur = s.cur ∧ t.prev = s.prev ∧
    ∀ (rest : List Stimulus) (u : State),
      t.port = .command (encode .scan) :: rest → t.hung = false → t.fault = false → t.busAnswers 12 = true →
      step t = .next u → u.prev = s.cur

/-- R119: during a scan `ROWSEL` only ever holds `0b0000` or one row line; at each read exactly the line of the row
being filled is asserted; a row is selected only when none is. Holds of a scan that hangs too. -/
def Obligations.NeverTwoRowLinesAsserted : Prop :=
  ∀ s t : State, s.cfg.wf = true → exec .scan s = .next t →
    ∀ done todo : List Event, t.trace = s.trace ++ done ++ todo → done ≠ [] →
      (replayRowsel s.rowsel done = 0b0000#4 ∨ Nibble.isOneHot (replayRowsel s.rowsel done) = true) ∧
      (∀ (w : Word) (rest : List Event), todo = .inRead w :: rest →
        ∃ r : Row, r.val = countReads done ∧ replayRowsel s.rowsel done = s.cfg.rowPat[r] ∧
          Nibble.isOneHot (replayRowsel s.rowsel done) = true) ∧
      (∀ (v : Nibble) (rest : List Event), todo = .rowSel v :: rest → v ≠ 0b0000#4 →
        replayRowsel s.rowsel done = 0b0000#4)

/-- R112(c), R12: a scan looks at bits 8:5 of its draws only. -/
def Obligations.ScanIgnoresBitsOutsideColumnField : Prop :=
  ∀ (s t u : State) (ws vs : List Word),
    (∀ r : Row, ({ s with inputs := ws } : State).upcoming r.val &&& 0x000001E0#32 =
      ({ s with inputs := vs } : State).upcoming r.val &&& 0x000001E0#32) →
    exec .scan { s with inputs := ws } = .next t → exec .scan { s with inputs := vs } = .next u →
    t.cur = u.cur ∧ t.prev = u.prev ∧ t.rowsel = u.rowsel ∧ t.responses = u.responses

/-- R25: `ROWSEL` is 0 after a scan that ends, and stays 0 until the next scan runs or a Reset comes. -/
def Obligations.NoRowSelectedBetweenScans : Prop :=
  (∀ s t : State, s.fault = false → s.busAnswers 12 = true → exec .scan s = .next t → t.rowsel = 0b0000#4) ∧
  (∀ s t : State, step s = .next t → s.rowsel = 0b0000#4 → t.hung = false →
    (∀ during rest, s.port ≠ .reset during :: rest) → t.rowsel = 0b0000#4)

/-- 93 U9 (general knowledge, not the source's; log 22): where every read that a scan makes while `ROWSEL = ROW_PAT(r)`
shows the keys of row `r` held at that instant, the scan fills row `r` with the keys held at its one read of that row,
its event number `3r + 1`; where the keys do not change, with the keys held. It needs that the scan reads each row while
that row's line is asserted. -/
def Obligations.IdealKeypadIsReportedByScan : Prop :=
  ∀ (K : Nat → Grid) (s t : State), s.fault = false → s.busAnswers 12 = true → exec .scan s = .next t →
    IdealKeypad K s t →
    (∀ (r : Row) (c : Col), t.cur.cell r c = (K (3 * r.val + 1)).cell r c) ∧ (KeysStable K → t.cur = K 0)

/-- R41, R112(g): what `SCAN` never touches, whether it ends, hangs or is refused. -/
def Obligations.ScanFrame : Prop :=
  ∀ s t : State, exec .scan s = .next t →
    t.disp = s.disp ∧ t.fault = s.fault ∧ t.cfg = s.cfg ∧ t.port = s.port ∧
    ∀ a : BufAddr, t.buf.read a = s.buf.read a

/-- R41: the queries and `ENCODE` change nothing but the list of responses, whether they answer or are refused. -/
def Obligations.QueriesAndEncodeFrame : Prop :=
  ∀ (row : Row) (col : Col) (ch : CharCode) (i : Instr) (s t : State),
    i ∈ [.isPressed row col, .justPressed row col, .justReleased row col, .encode ch] →
    exec i s = .next t → t = { s with responses := t.responses }

/-! ### The character encoder -/

/-- R132, R131: `encode` is the table on the 23 codes and blank on every other, and `ENCODE` answers it, state
unchanged, empty trace. -/
def Obligations.EncodeAnswersTheTable : Prop :=
  (∀ (cfg : Config) (k : Fin 23),
    encodeChar cfg (([0x21, 0x28, 0x29, 0x2A, 0x2B, 0x2D, 0x2E, 0x2F, 0x30, 0x31, 0x32, 0x33, 0x34, 0x35, 0x36,
      0x37, 0x38, 0x39, 0x5E, 0x63, 0x6C, 0x73, 0x74] : List (BitVec 8)).getD k.val 0#8) = cfg.seg[k]) ∧
  (∀ (cfg : Config) (ch : CharCode),
    ch ∉ ([0x21, 0x28, 0x29, 0x2A, 0x2B, 0x2D, 0x2E, 0x2F, 0x30, 0x31, 0x32, 0x33, 0x34, 0x35, 0x36,
      0x37, 0x38, 0x39, 0x5E, 0x63, 0x6C, 0x73, 0x74] : List (BitVec 8)) → encodeChar cfg ch = 0x00#8) ∧
  ∀ (ch : CharCode) (s : State),
    encode (.encode ch) = 0x50000000#32 ||| ch.setWidth 32 ∧
    (s.fault = false → exec (.encode ch) s =
      .next { s with responses := s.responses ++ [(encodeChar s.cfg ch).setWidth 32] }) ∧
    (s.fault = true → exec (.encode ch) s = .next { s with responses := s.responses ++ [0x80030000#32] })

/-! ### The display driver -/

/-- R29, R145: the routing table of the six positions, and the write that follows it: `put` changes the one latch. -/
def Obligations.PositionsAreRoutedToTheirHalf : Prop :=
  (digits.map fun p => (half p, offset p)) = [(.lo, 0), (.lo, 1), (.lo, 2), (.lo, 3), (.hi, 0), (.hi, 1)] ∧
  ∀ (p : Digit) (v : Pattern) (s : State), s.busAnswers 1 = true →
    put p v s = .ok { s with
      disp := s.disp.set p v, bus := s.bus.drop 1, trace := s.trace ++ [.dispWrite (half p) (offset p) v] }

/-- R141, R171: `WRITE_AT`. -/
def Obligations.WriteAtWritesOneLatchOrFaults : Prop :=
  ∀ (ch : CharCode) (pos : Pos) (s : State),
    encode (.writeAt ch pos) = 0x60000000#32 ||| (BitVec.ofNat 32 pos.val <<< 8) ||| ch.setWidth 32 ∧
    (s.fault = true → exec (.writeAt ch pos) s = .next { s with responses := s.responses ++ [0x80030000#32] }) ∧
    (s.fault = false → 5 < pos.val → exec (.writeAt ch pos) s =
      .next { s with fault := true, responses := s.responses ++ [0x80010000#32] }) ∧
    (∀ h : pos.val < 6, s.fault = false → s.busAnswers 1 = true → exec (.writeAt ch pos) s =
      .next { s with
        disp := s.disp.set pos.val (encodeChar s.cfg ch)
        bus := s.bus.drop 1
        trace := s.trace ++ [if pos.val ≤ 3
          then .dispWrite .lo (Fin.ofNat 4 pos.val) (encodeChar s.cfg ch)
          else .dispWrite .hi (Fin.ofNat 4 (pos.val - 4)) (encodeChar s.cfg ch)]
        responses := s.responses ++ [0x00000000#32] })

/-- R142: `CLEAR_ALL`. -/
def Obligations.ClearAllBlanksEveryPositionInOrder : Prop :=
  encode .clearAll = 0x70000000#32 ∧
  ∀ s : State,
    (s.fault = false → s.busAnswers 6 = true →
      exec .clearAll s = .next { s with
        disp := Vector.replicate 6 0x00#8
        bus := s.bus.drop 6
        trace := s.trace ++ [.dispWrite .lo 0 0x00#8, .dispWrite .lo 1 0x00#8, .dispWrite .lo 2 0x00#8,
          .dispWrite .lo 3 0x00#8, .dispWrite .hi 0 0x00#8, .dispWrite .hi 1 0x00#8]
        responses := s.responses ++ [0x00000000#32] }) ∧
    (s.fault = true → exec .clearAll s = .next { s with responses := s.responses ++ [0x80030000#32] })

/-- R143: `RENDER_TRAILING`: latches, trace and response, for every `TRAILING_BLANK_FILL`. -/
def Obligations.RenderTrailingShowsTheTail : Prop :=
  ∀ (base : BufAddr) (len : Len) (s : State),
    encode (.renderTrailing base len) = 0x80000000#32 ||| (BitVec.ofNat 32 len.val <<< 16) ||| base.setWidth 32 ∧
    (s.fault = true →
      exec (.renderTrailing base len) s = .next { s with responses := s.responses ++ [0x80030000#32] }) ∧
    (s.fault = false → len.val = 0 → s.busAnswers 6 = true →
      exec (.renderTrailing base len) s = .next { s with
        disp := Vector.replicate 6 0x00#8
        bus := s.bus.drop 6
        trace := s.trace ++ clearTrace
        responses := s.responses ++ [0x00000000#32] }) ∧
    (s.fault = false → 0 < len.val →
      s.busAnswers (if s.cfg.trailingBlankFill = true then 6 else min 6 len.val) = true →
      exec (.renderTrailing base len) s = .next { s with
        disp := Vector.ofFn fun p : Fin 6 =>
          if p.val < min 6 len.val then encodeChar s.cfg (s.buf.read (charAddr base (len.val - 1 - p.val)))
          else if s.cfg.trailingBlankFill = true then 0x00#8 else s.disp[p]
        bus := s.bus.drop (if s.cfg.trailingBlankFill = true then 6 else min 6 len.val)
        trace := s.trace ++ trailingTrace s base len
        responses := s.responses ++ [0x00000000#32] })

/-- R143, 90_conflicts.md C2: a render with a non-empty buffer leaves the same display under both values of
`TRAILING_BLANK_FILL` exactly when the positions its window does not reach were already blank. -/
def Obligations.BlankFillMattersOnlyOnStaleDigits : Prop :=
  ∀ (base : BufAddr) (len : Len) (s t u : State),
    s.fault = false → 0 < len.val → s.busAnswers 6 = true →
    exec (.renderTrailing base len) { s with cfg := { s.cfg with trailingBlankFill := false } } = .next t →
    exec (.renderTrailing base len) { s with cfg := { s.cfg with trailingBlankFill := true } } = .next u →
    (t.disp = u.disp ↔ ∀ p : Fin 6, min 6 len.val ≤ p.val → s.disp[p] = 0x00#8)

/-- R144: `RENDER_RESULT`: the first `min(6, len)` characters, the first at position 5; the other latches keep what they
showed. -/
def Obligations.RenderResultShowsTheHead : Prop :=
  ∀ (base : BufAddr) (len : Len) (s : State),
    encode (.renderResult base len) = 0x90000000#32 ||| (BitVec.ofNat 32 len.val <<< 16) ||| base.setWidth 32 ∧
    (s.fault = true →
      exec (.renderResult base len) s = .next { s with responses := s.responses ++ [0x80030000#32] }) ∧
    (s.fault = false → s.busAnswers (min 6 len.val) = true →
      exec (.renderResult base len) s = .next { s with
        disp := Vector.ofFn fun p : Fin 6 =>
          if 5 - p.val < min 6 len.val then encodeChar s.cfg (s.buf.read (charAddr base (5 - p.val))) else s.disp[p]
        bus := s.bus.drop (min 6 len.val)
        trace := s.trace ++ resultTrace s base len
        responses := s.responses ++ [0x00000000#32] })

/-- R95: the two identities between operations. -/
def Obligations.EmptyTrailingIsClearAndUnknownIsBlank : Prop :=
  (∀ (base : BufAddr) (s : State), exec (.renderTrailing base 0) s = exec .clearAll s) ∧
  (∀ (ch : CharCode) (pos : Pos) (s : State), ch ∉ alphabet → s.fault = false → s.busAnswers 1 = true →
    ∀ h : pos.val < 6, exec (.writeAt ch pos) s = .next { s with
      disp := s.disp.set pos.val 0x00#8
      bus := s.bus.drop 1
      trace := s.trace ++ [putEvent ⟨pos.val, h⟩ 0x00#8]
      responses := s.responses ++ [0x00000000#32] })

/-- R70: a display operation one of whose `n` accesses never completes hangs: no response, no fault. -/
def Obligations.DisplayHangsOnAnUnansweredAccess : Prop :=
  ∀ (ch : CharCode) (pos : Pos) (base : BufAddr) (len : Len) (i : Instr) (n : Nat) (s : State),
    (i, n) ∈ [(.writeAt ch pos, if pos.val ≤ 5 then 1 else 0), (.clearAll, 6),
      (.renderTrailing base len, if len.val = 0 ∨ s.cfg.trailingBlankFill = true then 6 else min 6 len.val),
      (.renderResult base len, min 6 len.val)] →
    s.fault = false → s.busAnswers n = false →
    ∃ t, exec i s = .next t ∧ t.hung = true ∧ t.responses = s.responses ∧ t.fault = false ∧
      ∃ k, k < n ∧ s.bus = List.replicate k true ++ false :: t.bus

/-- R149, R41: what no operation of the display driver touches, whether it ends, hangs, faults or is refused. -/
def Obligations.DisplayFrame : Prop :=
  ∀ (ch : CharCode) (pos : Pos) (base : BufAddr) (len : Len) (i : Instr) (s t : State),
    i ∈ [.writeAt ch pos, .clearAll, .renderTrailing base len, .renderResult base len] →
    exec i s = .next t →
    t.cur = s.cur ∧ t.prev = s.prev ∧ t.rowsel = s.rowsel ∧ t.inputs = s.inputs ∧ t.draws = s.draws ∧
    t.cfg = s.cfg ∧ t.port = s.port ∧ (∀ a : BufAddr, t.buf.read a = s.buf.read a) ∧
    (t.fault = s.fault ∨ (i = .writeAt ch pos ∧ 5 < pos.val))

/-- R141, R143, R144: the latches an operation does not write keep their patterns, also when it hangs part of the way. -/
def Obligations.UnwrittenLatchesKeepTheirPattern : Prop :=
  (∀ (ch : CharCode) (pos : Pos) (s t : State) (q : Fin 6),
    exec (.writeAt ch pos) s = .next t → q.val ≠ pos.val → t.disp[q] = s.disp[q]) ∧
  (∀ (base : BufAddr) (len : Len) (s t : State) (q : Fin 6),
    exec (.renderTrailing base len) s = .next t → 0 < len.val → s.cfg.trailingBlankFill = false →
    min 6 len.val ≤ q.val → t.disp[q] = s.disp[q]) ∧
  (∀ (base : BufAddr) (len : Len) (s t : State) (q : Fin 6),
    exec (.renderResult base len) s = .next t → min 6 len.val ≤ 5 - q.val → t.disp[q] = s.disp[q])

/-- R203, R41: the keypad and the display share no state: each side's operations run the same whatever the other side
holds, and leave it alone. -/
def Obligations.KeypadAndDisplayShareNoState : Prop :=
  (∀ (ch : CharCode) (pos : Pos) (base : BufAddr) (len : Len) (i : Instr) (s t : State)
      (g h : Grid) (v : Nibble) (ws : List Word),
    i ∈ [.writeAt ch pos, .clearAll, .renderTrailing base len, .renderResult base len] →
    exec i s = .next t →
    exec i { s with cur := g, prev := h, rowsel := v, inputs := ws } =
      .next { t with cur := g, prev := h, rowsel := v, inputs := ws }) ∧
  (∀ (s t : State) (d : Vector Pattern 6) (m : Memory), exec .scan s = .next t →
    exec .scan { s with disp := d, buf := m } = .next { t with disp := d, buf := m })

/-- R148, R38: the latches and the row outputs are write-only: no response, event or other state depends on what they
hold. -/
def Obligations.LatchesCannotBeReadBack : Prop :=
  ∀ (i : Instr) (s t : State) (d : Vector Pattern 6) (v : Nibble), exec i s = .next t →
    ∃ u, exec i { s with disp := d, rowsel := v } = .next u ∧
      u.responses = t.responses ∧ u.trace = t.trace ∧ u.cur = t.cur ∧ u.prev = t.prev ∧ u.fault = t.fault ∧
      u.hung = t.hung

/-! ### The battery sampler -/

/-- R161: `SAMPLE` answers bits 15:11 of one fresh draw, one event, state of the block unchanged. -/
def Obligations.SampleAnswersTheRawBits : Prop :=
  encode .sample = 0xA0000000#32 ∧
  ∀ s : State,
    (s.fault = false → s.busAnswers 1 = true →
      exec .sample s = .next { s with
        inputs := s.inputs.drop 1
        draws := s.draws + s.freeDraws 1
        bus := s.bus.drop 1
        trace := s.trace ++ [.inRead (s.upcoming 0)]
        responses := s.responses ++ [((s.upcoming 0).extractLsb' 11 5).setWidth 32] }) ∧
    (s.fault = true → exec .sample s = .next { s with responses := s.responses ++ [0x80030000#32] }) ∧
    (s.fault = false → s.busAnswers 1 = false →
      ∃ t, exec .sample s = .next t ∧ t.hung = true ∧ t.responses = s.responses)

/-- R161(d), (e), R41: `SAMPLE` leaves the whole state of the block and the buffer unchanged, also when it hangs. -/
def Obligations.SampleFrame : Prop :=
  ∀ s t : State, exec .sample s = .next t →
    t.cur = s.cur ∧ t.prev = s.prev ∧ t.rowsel = s.rowsel ∧ t.disp = s.disp ∧ t.fault = s.fault ∧ t.cfg = s.cfg ∧
    t.port = s.port ∧ ∀ a : BufAddr, t.buf.read a = s.buf.read a

/-! ### The trace -/

/-- R11: the two ways of giving an operation's effect agree: `ROWSEL` and the latches after it are what its own events,
replayed, make of those before it, whether it ends, hangs, faults or is refused. -/
def Obligations.TraceRealisesTheEffect : Prop :=
  ∀ (i : Instr) (s t : State), exec i s = .next t →
    ∃ events, t.trace = s.trace ++ events ∧
      t.rowsel = replayRowsel s.rowsel events ∧ t.disp = replayDisp s.disp events

/-- R11, R96: every operation performs at most 12 events, of them at most 4 reads of the pins, 6 display writes and 6
buffer reads. -/
def Obligations.EveryTraceIsBounded : Prop :=
  ∀ (i : Instr) (s t : State), exec i s = .next t →
    ∃ events, t.trace = s.trace ++ events ∧ events.length ≤ 12 ∧ countReads events ≤ 4 ∧
      (events.countP fun e => match e with | .dispWrite _ _ _ => true | _ => false) ≤ 6 ∧
      (events.countP fun e => match e with | .bufRead _ _ => true | _ => false) ≤ 6

/-- R30, R50, R34, R60: every event reaches a register of the map or a byte of `BUF`, in the one direction the block
uses it, aligned to its width; bytes 2 and 3 of `DHI` are never among them. -/
def Obligations.EveryEventIsInTheRegisterMap : Prop :=
  ∀ (i : Instr) (s t : State), s.cfg.wf = true → exec i s = .next t →
    ∃ events, t.trace = s.trace ++ events ∧
      ∀ e ∈ events, (e.access s.cfg).allowed s.cfg ∧ (e.access s.cfg).offset % (e.access s.cfg).bytes = 0

/-- R51, R63, R7: under the constraints on the OPEN parameters no two registers of the map overlap on the bus. -/
def Obligations.RegistersDoNotOverlap : Prop :=
  ∀ (cfg : Config) (a b : Access) (x y : Nat), cfg.wf = true →
    a ∈ registerMap cfg → b ∈ registerMap cfg → a ≠ b → a.busAddress cfg = some x → b.busAddress cfg = some y →
    x + a.bytes ≤ y ∨ y + b.bytes ≤ x

/-! ### Whole runs -/

/-- The invariant of the machine is kept by every step (R7, R53, R35, R88). -/
def Obligations.EveryStepKeepsTheInvariant : Prop :=
  ∀ s t : State, s.Inv → step s = .next t → t.Inv

/-- The invariant holds right after reset. -/
def Obligations.InvariantHoldsAtReset : Prop := State.reset.Inv

/-- R97: a host that never issues `WRITE_AT` never sees `FAULT = 1`. -/
def Obligations.ApplicationWithoutWriteAtNeverFaults : Prop :=
  ∀ (n : Nat) (s t : State), s.fault = false →
    (∀ (ch : CharCode) (pos : Pos), .command (encode (.writeAt ch pos)) ∉ s.port) →
    Host.Core.run Sys2Proof.core n s = .next t → t.fault = false
end

