-- ==== Sys2Proof/Laws/Sequences.lean ====
section
/-! SUPPORT. What running the actions of an operation comes to: the sequences of the operations as functions of the
state, with which the laws of the scanner and of the display are stated. -/

namespace Sys2Proof.Machine

theorem runAll_nil (s : State) : runAll [] s = .ok s := rfl

theorem runAll_cons (a : Action) (l : List Action) (s : State) : runAll (a :: l) s = a s >>= runAll l :=
  List.foldlM_cons ..

theorem runAll_append (k l : List Action) (s : State) : runAll (k ++ l) s = runAll k s >>= runAll l :=
  List.foldlM_append ..

theorem runAll_single (a : Action) (s : State) : runAll [a] s = a s := by
  rw [runAll_cons]; exact bind_pure (a s)

theorem runAll_flatMap {α : Type} (f : α → List Action) :
    ∀ (l : List α) (s : State), runAll (l.flatMap f) s = l.foldlM (fun s x => runAll (f x) s) s
  | [], _ => rfl
  | x :: l, s => by
    rw [List.flatMap_cons, runAll_append, List.foldlM_cons]
    exact bind_congr fun t => runAll_flatMap f l t

theorem runAll_map {α : Type} (f : α → Action) :
    ∀ (l : List α) (s : State), runAll (l.map f) s = l.foldlM (fun s x => f x s) s
  | [], _ => rfl
  | x :: l, s => by
    rw [List.map_cons, runAll_cons, List.foldlM_cons]
    exact bind_congr fun t => runAll_map f l t

/-- One row of a scan (R112). -/
def scanRow (s : State) (r : Row) : Except Stop State := runAll (rowActions r) s

/-- One row of a scan, line by line. -/
theorem scanRow_eq (s : State) (r : Row) : scanRow s r = (do
    let s ← rowWrite (s.cfg.rowPat[r].setWidth 32) s
    let (w, s) ← inputRead s
    rowWrite 0#32 (sampleRow r w s)) := by
  rw [scanRow, rowActions, runAll_cons]
  refine bind_congr fun t => ?_
  rw [runAll_cons, readRow, bind_assoc]
  exact bind_congr fun p => runAll_single releaseRows _

theorem runAll_scanActions (s : State) : runAll scanActions s = rows.foldlM scanRow s := runAll_flatMap rowActions rows s

/-- Blanks at some positions (R142). -/
def blankDigits (ps : List Digit) (s : State) : Except Stop State := ps.foldlM (fun s p => put p blank s) s

theorem runAll_blankActions (ps : List Digit) (s : State) : runAll (blankActions ps) s = blankDigits ps s :=
  runAll_map _ ps s

/-- One character of the buffer, read and shown (R143, R144). -/
def showChar (a : BufAddr) (p : Digit) (s : State) : Except Stop State := runAll (charActions a p) s

theorem showChar_eq (a : BufAddr) (p : Digit) (s : State) :
    showChar a p s = put p (encodeChar s.cfg (s.buf.read a)) (s.record (.bufRead a (s.buf.read a))) := by
  unfold showChar charActions
  rw [runAll_cons]
  exact runAll_single _ _

/-- The characters of `RENDER_TRAILING` (R143). -/
def showTrailing (base : BufAddr) (len : Len) (s : State) : Except Stop State :=
  (digits.take (window len)).foldlM (fun s i => showChar (trailingAddr base len i) i s) s

/-- The characters of `RENDER_RESULT` (R144). -/
def showResult (base : BufAddr) (len : Len) (s : State) : Except Stop State :=
  (digits.take (window len)).foldlM (fun s i => showChar (resultAddr base i) (resultDigit i) s) s

theorem runAll_resultActions (base : BufAddr) (len : Len) (s : State) :
    runAll (resultActions base len) s = showResult base len s := runAll_flatMap _ _ s

/-- The whole of `RENDER_TRAILING` (R143). -/
def renderTrailing (base : BufAddr) (len : Len) (s : State) : Except Stop State :=
  if len.val = 0 then blankDigits digits s
  else do
    let t ← showTrailing base len s
    if s.cfg.trailingBlankFill then blankDigits (digits.drop (window len)) t else .ok t

theorem runAll_trailingActions (base : BufAddr) (len : Len) (s : State) :
    runAll (trailingActions s.cfg.trailingBlankFill base len) s = renderTrailing base len s := by
  unfold trailingActions renderTrailing
  split
  · exact runAll_blankActions _ _
  · rw [runAll_append]
    refine (congrArg (· >>= _) (runAll_flatMap _ _ s)).trans (bind_congr fun t => ?_)
    split
    · exact runAll_blankActions _ _
    · rfl

theorem writeAt_in {pos : Pos} (h : pos.val ≤ 5) (ch : CharCode) (s : State) :
    writeAt ch pos s = put ⟨pos.val, by omega⟩ (encodeChar s.cfg ch) s := by
  rw [writeAt, if_neg (by omega), writeActions, dif_pos h]
  exact runAll_single _ _

theorem writeAt_raises {pos : Pos} (h : 5 < pos.val) (ch : CharCode) (s : State) :
    writeAt ch pos s = .error (.raised (.positionRange pos) s) := by rw [writeAt, if_pos h]

end Sys2Proof.Machine
end

