-- ==== Sys2Proof/Laws/State.lean ====
section
/-! SUPPORT. One lemma per field per update of the state, so that no proof unfolds a record update. -/

namespace Sys2Proof.Machine

section record
variable (e : Event) (s : State)

@[simp] theorem State.record_cur : (s.record e).cur = s.cur := rfl
@[simp] theorem State.record_prev : (s.record e).prev = s.prev := rfl
@[simp] theorem State.record_rowsel : (s.record e).rowsel = s.rowsel := rfl
@[simp] theorem State.record_disp : (s.record e).disp = s.disp := rfl
@[simp] theorem State.record_fault : (s.record e).fault = s.fault := rfl
@[simp] theorem State.record_hung : (s.record e).hung = s.hung := rfl
@[simp] theorem State.record_cfg : (s.record e).cfg = s.cfg := rfl
@[simp] theorem State.record_port : (s.record e).port = s.port := rfl
@[simp] theorem State.record_buf : (s.record e).buf = s.buf := rfl
@[simp] theorem State.record_inputs : (s.record e).inputs = s.inputs := rfl
@[simp] theorem State.record_bus : (s.record e).bus = s.bus := rfl
@[simp] theorem State.record_draws : (s.record e).draws = s.draws := rfl
@[simp] theorem State.record_responses : (s.record e).responses = s.responses := rfl
@[simp] theorem State.record_trace : (s.record e).trace = s.trace ++ [e] := rfl

end record

section respond
variable (w : Word) (s : State)

@[simp] theorem State.respond_cur : (s.respond w).cur = s.cur := rfl
@[simp] theorem State.respond_prev : (s.respond w).prev = s.prev := rfl
@[simp] theorem State.respond_rowsel : (s.respond w).rowsel = s.rowsel := rfl
@[simp] theorem State.respond_disp : (s.respond w).disp = s.disp := rfl
@[simp] theorem State.respond_fault : (s.respond w).fault = s.fault := rfl
@[simp] theorem State.respond_hung : (s.respond w).hung = s.hung := rfl
@[simp] theorem State.respond_cfg : (s.respond w).cfg = s.cfg := rfl
@[simp] theorem State.respond_port : (s.respond w).port = s.port := rfl
@[simp] theorem State.respond_buf : (s.respond w).buf = s.buf := rfl
@[simp] theorem State.respond_inputs : (s.respond w).inputs = s.inputs := rfl
@[simp] theorem State.respond_bus : (s.respond w).bus = s.bus := rfl
@[simp] theorem State.respond_draws : (s.respond w).draws = s.draws := rfl
@[simp] theorem State.respond_responses : (s.respond w).responses = s.responses ++ [w] := rfl
@[simp] theorem State.respond_trace : (s.respond w).trace = s.trace := rfl

end respond

section setLatch
variable (p : Digit) (v : Pattern) (s : State)

@[simp] theorem State.setLatch_cur : (s.setLatch p v).cur = s.cur := rfl
@[simp] theorem State.setLatch_prev : (s.setLatch p v).prev = s.prev := rfl
@[simp] theorem State.setLatch_rowsel : (s.setLatch p v).rowsel = s.rowsel := rfl
@[simp] theorem State.setLatch_disp : (s.setLatch p v).disp = s.disp.set p v := rfl
@[simp] theorem State.setLatch_fault : (s.setLatch p v).fault = s.fault := rfl
@[simp] theorem State.setLatch_hung : (s.setLatch p v).hung = s.hung := rfl
@[simp] theorem State.setLatch_cfg : (s.setLatch p v).cfg = s.cfg := rfl
@[simp] theorem State.setLatch_port : (s.setLatch p v).port = s.port := rfl
@[simp] theorem State.setLatch_buf : (s.setLatch p v).buf = s.buf := rfl
@[simp] theorem State.setLatch_inputs : (s.setLatch p v).inputs = s.inputs := rfl
@[simp] theorem State.setLatch_bus : (s.setLatch p v).bus = s.bus := rfl
@[simp] theorem State.setLatch_draws : (s.setLatch p v).draws = s.draws := rfl
@[simp] theorem State.setLatch_responses : (s.setLatch p v).responses = s.responses := rfl
@[simp] theorem State.setLatch_trace : (s.setLatch p v).trace = s.trace := rfl

end setLatch

section storeByte
variable (a : BufAddr) (ch : CharCode) (s : State)

@[simp] theorem State.storeByte_cur : (s.storeByte a ch).cur = s.cur := rfl
@[simp] theorem State.storeByte_prev : (s.storeByte a ch).prev = s.prev := rfl
@[simp] theorem State.storeByte_rowsel : (s.storeByte a ch).rowsel = s.rowsel := rfl
@[simp] theorem State.storeByte_disp : (s.storeByte a ch).disp = s.disp := rfl
@[simp] theorem State.storeByte_fault : (s.storeByte a ch).fault = s.fault := rfl
@[simp] theorem State.storeByte_hung : (s.storeByte a ch).hung = s.hung := rfl
@[simp] theorem State.storeByte_cfg : (s.storeByte a ch).cfg = s.cfg := rfl
@[simp] theorem State.storeByte_port : (s.storeByte a ch).port = s.port := rfl
@[simp] theorem State.storeByte_buf : (s.storeByte a ch).buf = Memory.insert s.buf a.toNat ch := rfl
@[simp] theorem State.storeByte_inputs : (s.storeByte a ch).inputs = s.inputs := rfl
@[simp] theorem State.storeByte_bus : (s.storeByte a ch).bus = s.bus := rfl
@[simp] theorem State.storeByte_draws : (s.storeByte a ch).draws = s.draws := rfl
@[simp] theorem State.storeByte_responses : (s.storeByte a ch).responses = s.responses := rfl
@[simp] theorem State.storeByte_trace : (s.storeByte a ch).trace = s.trace := rfl

end storeByte

section resetEvent
variable (s : State)

@[simp] theorem State.resetEvent_cur : (s.resetEvent).cur = Grid.atReset := rfl
@[simp] theorem State.resetEvent_prev : (s.resetEvent).prev = Grid.atReset := rfl
@[simp] theorem State.resetEvent_rowsel : (s.resetEvent).rowsel = Config.freeRowsel s.draws := rfl
@[simp] theorem State.resetEvent_disp : (s.resetEvent).disp = Vector.ofFn (Config.freeLatch s.draws) := rfl
@[simp] theorem State.resetEvent_fault : (s.resetEvent).fault = false := rfl
@[simp] theorem State.resetEvent_hung : (s.resetEvent).hung = false := rfl
@[simp] theorem State.resetEvent_cfg : (s.resetEvent).cfg = s.cfg := rfl
@[simp] theorem State.resetEvent_port : (s.resetEvent).port = s.port := rfl
@[simp] theorem State.resetEvent_buf : (s.resetEvent).buf = s.buf := rfl
@[simp] theorem State.resetEvent_inputs : (s.resetEvent).inputs = s.inputs := rfl
@[simp] theorem State.resetEvent_bus : (s.resetEvent).bus = s.bus := rfl
@[simp] theorem State.resetEvent_draws : (s.resetEvent).draws = s.draws + 1 := rfl
@[simp] theorem State.resetEvent_responses : (s.resetEvent).responses = s.responses := rfl
@[simp] theorem State.resetEvent_trace : (s.resetEvent).trace = s.trace := rfl

end resetEvent

section present
variable (cmd : Word) (s : State)

@[simp] theorem State.present_cur : (s.present cmd).cur = s.cur := rfl
@[simp] theorem State.present_prev : (s.present cmd).prev = s.prev := rfl
@[simp] theorem State.present_rowsel : (s.present cmd).rowsel = s.rowsel := rfl
@[simp] theorem State.present_disp : (s.present cmd).disp = s.disp := rfl
@[simp] theorem State.present_fault : (s.present cmd).fault = s.fault := rfl
@[simp] theorem State.present_hung : (s.present cmd).hung = false := rfl
@[simp] theorem State.present_cfg : (s.present cmd).cfg = s.cfg := rfl
@[simp] theorem State.present_port : (s.present cmd).port = .command cmd :: s.port := rfl
@[simp] theorem State.present_buf : (s.present cmd).buf = s.buf := rfl
@[simp] theorem State.present_inputs : (s.present cmd).inputs = s.inputs := rfl
@[simp] theorem State.present_bus : (s.present cmd).bus = s.bus := rfl
@[simp] theorem State.present_draws : (s.present cmd).draws = s.draws := rfl
@[simp] theorem State.present_responses : (s.present cmd).responses = s.responses := rfl
@[simp] theorem State.present_trace : (s.present cmd).trace = s.trace := rfl

end present

section raise
variable (c : Cause) (s : State)

@[simp] theorem State.raise_cur : (s.raise c).cur = s.cur := by cases c <;> rfl
@[simp] theorem State.raise_prev : (s.raise c).prev = s.prev := by cases c <;> rfl
@[simp] theorem State.raise_rowsel : (s.raise c).rowsel = s.rowsel := by cases c <;> rfl
@[simp] theorem State.raise_disp : (s.raise c).disp = s.disp := by cases c <;> rfl
/-- Only `PositionRange` is recorded (R170). -/
@[simp] theorem State.raise_fault :
    (s.raise c).fault = match c with | .positionRange _ => true | .reservedCommand _ => s.fault | .faulted => s.fault := by
  cases c <;> rfl
@[simp] theorem State.raise_hung : (s.raise c).hung = s.hung := by cases c <;> rfl
@[simp] theorem State.raise_cfg : (s.raise c).cfg = s.cfg := by cases c <;> rfl
@[simp] theorem State.raise_port : (s.raise c).port = s.port := by cases c <;> rfl
@[simp] theorem State.raise_buf : (s.raise c).buf = s.buf := by cases c <;> rfl
@[simp] theorem State.raise_inputs : (s.raise c).inputs = s.inputs := by cases c <;> rfl
@[simp] theorem State.raise_bus : (s.raise c).bus = s.bus := by cases c <;> rfl
@[simp] theorem State.raise_draws : (s.raise c).draws = s.draws := by cases c <;> rfl
@[simp] theorem State.raise_responses : (s.raise c).responses = s.responses ++ [responseWord true c.code 0#8] := by
  cases c <;> rfl
@[simp] theorem State.raise_trace : (s.raise c).trace = s.trace := by cases c <;> rfl

end raise

end Sys2Proof.Machine
end

