-- ==== Sys2Proof/Laws/Ops.lean ====
section
/-! SUPPORT. What each shared operation does, once: exactly, when the accesses complete; and in general, as the
relation `Follows`, which every sequence of accesses satisfies, whether it ends or hangs. -/

namespace Sys2Proof.Machine

/-! ### Cells, fields, the response word -/

@[simp] theorem Grid.cell_ofFn (f : Row → Col → Bool) (r : Row) (c : Col) : (Grid.ofFn f).cell r c = f r c := by
  simp [Grid.cell, Grid.ofFn]

theorem Grid.cell_setCell (g : Grid) (r r' : Row) (c c' : Col) (b : Bool) :
    (g.setCell r c b).cell r' c' = if r = r' ∧ c = c' then b else g.cell r' c' := by
  simp only [Grid.cell, Grid.setCell, Fin.getElem_fin, Vector.getElem_set, Fin.ext_iff]
  by_cases hr : r.val = r'.val
  · by_cases hc : c.val = c'.val <;> simp [hr, hc]
  · simp [hr]

theorem Grid.ext_cell {g h : Grid} (e : ∀ r c, g.cell r c = h.cell r c) : g = h := by
  apply Vector.ext
  intro i hi
  apply Vector.ext
  intro j hj
  exact e ⟨i, hi⟩ ⟨j, hj⟩

/-- The row field takes back the nibble that was zero-extended into the output word (R54, R10). -/
@[simp] theorem rowField_zext (v : Nibble) : (v.setWidth 32).extractLsb' 0 4 = v := by
  revert v; decide

theorem responseWord_position : responseWord true 1#2 0#8 = 0x80010000#32 := by decide

theorem responseWord_reserved : responseWord true 2#2 0#8 = 0x80020000#32 := by decide

theorem responseWord_faulted : responseWord true 3#2 0#8 = 0x80030000#32 := by decide

theorem responseWord_done (d : BitVec 8) : responseWord false 0#2 d = d.setWidth 32 := by
  revert d; decide

theorem latchAt_routed (p : Digit) : latchAt (half p) (offset p) = some p := by
  revert p; decide

/-! ### Accesses that complete, and the one that does not -/

theorem Stop.ok_bind {α β : Type} (x : α) (f : α → Except Stop β) :
    ((Except.ok x : Except Stop α) >>= f) = f x := rfl

theorem Stop.error_bind {α β : Type} (e : Stop) (f : α → Except Stop β) :
    ((Except.error e : Except Stop α) >>= f) = .error e := rfl

/-- Where not all of the next `n` accesses complete, some number of them do and the next one never does. -/
theorem first_hang (bus : List Bool) (n : Nat) (h : (bus.take n).all id = false) :
    ∃ k rest, k < n ∧ bus = List.replicate k true ++ false :: rest := by
  induction bus generalizing n with
  | nil => simp at h
  | cons b bus ih =>
    cases n with
    | zero => simp at h
    | succ n =>
      cases b with
      | false => exact ⟨0, bus, by omega, rfl⟩
      | true =>
        obtain ⟨k, rest, hk, e⟩ := ih n (by simpa using h)
        exact ⟨k + 1, rest, by omega, by rw [e]; rfl⟩

theorem busAnswers_zero (s : State) : s.busAnswers 0 = true := by simp [State.busAnswers]

theorem busAccess_answered (s : State) (n : Nat) (h : s.busAnswers (n + 1) = true) :
    busAccess s = .ok { s with bus := s.bus.drop 1 } ∧
      State.busAnswers { s with bus := s.bus.drop 1 } n = true := by
  obtain ⟨_, _, _, _, _, _, _, _, _, _, bus, _, _, _⟩ := s
  match bus with
  | [] => simp [busAccess, State.busAnswers]
  | true :: rest => simpa [busAccess, State.busAnswers] using h
  | false :: rest => simp [State.busAnswers] at h

/-- Whether accesses complete depends on `bus` alone. -/
theorem busAnswers_congr {s t : State} (h : t.bus = s.bus) (n : Nat) : t.busAnswers n = s.busAnswers n := by
  simp [State.busAnswers, h]

/-- After `k` reads of `G0.IN` the `j`-th coming word is the one that was `k + j`-th. -/
theorem upcoming_after {s t : State} {k : Nat} (hi : t.inputs = s.inputs.drop k)
    (hd : t.draws = s.draws + s.freeDraws k) (j : Nat) : t.upcoming j = s.upcoming (k + j) := by
  simp only [State.upcoming, hi, hd, State.freeDraws, List.length_drop, List.getD_eq_getElem?_getD,
    List.getElem?_drop]
  by_cases h : k + j < s.inputs.length
  · simp [List.getElem?_eq_getElem h]
  · rw [List.getElem?_eq_none (by omega)]
    simp only [Option.getD_none]
    congr 1
    omega

/-- After `k` reads of `G0.IN`, the next `j` find as many words missing as `k + j` would have. -/
theorem freeDraws_after {s t : State} {k : Nat} (hi : t.inputs = s.inputs.drop k) (j : Nat) :
    s.freeDraws k + t.freeDraws j = s.freeDraws (k + j) := by
  simp only [State.freeDraws, hi, List.length_drop]
  omega

/-- Whether the accesses after the first `k` complete. -/
theorem busAnswers_after {s t : State} {k : Nat} (hb : t.bus = s.bus.drop k) {j : Nat}
    (h : s.busAnswers (k + j) = true) : t.busAnswers j = true := by
  simp only [State.busAnswers, hb, List.all_eq_true] at h ⊢
  intro b hm
  refine h b ?_
  rw [List.take_add]
  exact List.mem_append_right _ hm

theorem nextInput_eq (s : State) : nextInput s =
    (s.upcoming 0, { s with inputs := s.inputs.drop 1, draws := s.draws + s.freeDraws 1 }) := by
  obtain ⟨_, _, _, _, _, _, _, _, _, inputs, _, _, _, _⟩ := s
  cases inputs <;> simp [nextInput, State.upcoming, State.freeDraws]

theorem rowWrite_answered (v : Nibble) (s : State) (n : Nat) (h : s.busAnswers (n + 1) = true) :
    rowWrite (v.setWidth 32) s =
      .ok { s with bus := s.bus.drop 1, rowsel := v, trace := s.trace ++ [.rowSel v] } := by
  simp only [rowWrite, (busAccess_answered s n h).1, rowField_zext]
  rfl

theorem inputRead_answered (s : State) (n : Nat) (h : s.busAnswers (n + 1) = true) :
    inputRead s = .ok (s.upcoming 0, { s with
      bus := s.bus.drop 1, inputs := s.inputs.drop 1, draws := s.draws + s.freeDraws 1,
      trace := s.trace ++ [.inRead (s.upcoming 0)] }) := by
  simp only [inputRead, (busAccess_answered s n h).1, nextInput_eq]
  rfl

theorem put_answered (p : Digit) (v : Pattern) (s : State) (n : Nat) (h : s.busAnswers (n + 1) = true) :
    put p v s = .ok { s with
      bus := s.bus.drop 1, disp := s.disp.set p v, trace := s.trace ++ [putEvent p v] } := by
  simp only [put, displayWrite, (busAccess_answered s n h).1, latchAt_routed]
  rfl

theorem showChar_answered (a : BufAddr) (p : Digit) (s : State) (n : Nat) (h : s.busAnswers (n + 1) = true) :
    showChar a p s = .ok { s with
      bus := s.bus.drop 1, disp := s.disp.set p (encodeChar s.cfg (s.buf.read a)),
      trace := s.trace ++ [.bufRead a (s.buf.read a), putEvent p (encodeChar s.cfg (s.buf.read a))] } := by
  rw [showChar_eq, put_answered _ _ _ n (by simpa [State.busAnswers] using h)]
  simp

theorem busAccess_hang {s : State} {rest : List Bool} (h : s.bus = false :: rest) :
    busAccess s = .error (.hang { s with bus := rest }) := by simp [busAccess, h]

theorem rowWrite_hang {s : State} {rest : List Bool} (h : s.bus = false :: rest) (v : Word) :
    rowWrite v s = .error (.hang { s with bus := rest }) := by simp only [rowWrite, busAccess_hang h]; rfl

theorem inputRead_hang {s : State} {rest : List Bool} (h : s.bus = false :: rest) :
    inputRead s = .error (.hang { s with bus := rest }) := by simp only [inputRead, busAccess_hang h]; rfl

/-! ### Everything a sequence of accesses can do -/

theorem replayRowsel_append (v : Nibble) (a b : List Event) :
    replayRowsel v (a ++ b) = replayRowsel (replayRowsel v a) b := by simp [replayRowsel]

theorem replayDisp_append (d : Vector Pattern 6) (a b : List Event) :
    replayDisp d (a ++ b) = replayDisp (replayDisp d a) b := by simp [replayDisp]

/-- `t` follows `s` by some legal events, which account for `ROWSEL` and the latches, and by some accesses that completed;
the host's side, the parameters, `FAULT` and the responses are as before. -/
structure Follows (s t : State) : Prop where
  cfg : t.cfg = s.cfg
  buf : t.buf = s.buf
  port : t.port = s.port
  fault : t.fault = s.fault
  hung : t.hung = s.hung
  responses : t.responses = s.responses
  bus : ∃ k, s.bus = List.replicate k true ++ t.bus
  events : ∃ ev, t.trace = s.trace ++ ev ∧ t.rowsel = replayRowsel s.rowsel ev ∧ t.disp = replayDisp s.disp ev ∧
    ∀ e ∈ ev, e.Legal s.cfg

theorem Follows.refl (s : State) : Follows s s := ⟨rfl, rfl, rfl, rfl, rfl, rfl, ⟨0, rfl⟩, [], by simp [replayRowsel, replayDisp]⟩

theorem Follows.trans {s t u : State} (h : Follows s t) (k : Follows t u) : Follows s u := by
  obtain ⟨ev, h1, h2, h3, h4⟩ := h.events
  obtain ⟨ew, k1, k2, k3, k4⟩ := k.events
  obtain ⟨m, hm⟩ := h.bus
  obtain ⟨n, hn⟩ := k.bus
  refine ⟨k.cfg.trans h.cfg, k.buf.trans h.buf, k.port.trans h.port, k.fault.trans h.fault, k.hung.trans h.hung,
    k.responses.trans h.responses, ⟨m + n, by rw [hm, hn, List.replicate_add, List.append_assoc]⟩, ev ++ ew, ?_, ?_, ?_, ?_⟩
  · rw [k1, h1, List.append_assoc]
  · rw [k2, h2, replayRowsel_append]
  · rw [k3, h3, replayDisp_append]
  · intro e he
    rcases List.mem_append.1 he with he | he
    · exact h4 e he
    · exact h.cfg ▸ k4 e he

/-- A sequence of accesses ends, or hangs, in a state that follows the one it began in; it hangs on the first access
that the environment does not let complete, and raises nothing. -/
def Reaches (s : State) : Except Stop State → Prop
  | .ok t => Follows s t
  | .error (.hang t) => Follows s { t with bus := false :: t.bus }
  | .error (.raised _ _) => False

theorem Reaches.of_follows {s t : State} (h : Follows s t) {r : Except Stop State} (k : Reaches t r) : Reaches s r := by
  match r with
  | .ok _ => exact h.trans k
  | .error (.hang _) => exact h.trans k

theorem Reaches.bind {s : State} {r : Except Stop State} {f : State → Except Stop State}
    (h : Reaches s r) (k : ∀ t, Follows s t → Reaches t (f t)) : Reaches s (r >>= f) := by
  match r with
  | .ok t => exact Reaches.of_follows h (k t h)
  | .error (.hang _) => exact h

/-- Actions each of which can do no more than that can do no more together. -/
theorem Reaches.sequence : ∀ (l : List Action) (s : State), (∀ a ∈ l, ∀ t, Reaches t (a t)) → Reaches s (runAll l s)
  | [], s, _ => Follows.refl s
  | a :: l, s, k => by
    rw [runAll_cons]
    exact (k a (List.mem_cons_self ..) s).bind fun t _ =>
      Reaches.sequence l t fun b hb => k b (List.mem_cons_of_mem _ hb)

theorem busAccess_reaches (s : State) : Reaches s (busAccess s) := by
  unfold busAccess
  split
  · exact Follows.refl s
  · next rest e =>
    exact ⟨rfl, rfl, rfl, rfl, rfl, rfl, ⟨1, e⟩, [], by simp [replayRowsel, replayDisp]⟩
  · next rest e =>
    exact ⟨rfl, rfl, rfl, rfl, rfl, rfl, ⟨0, e⟩, [], by simp [replayRowsel, replayDisp]⟩

/-- A row-select write of `0b0000` or a value of `ROW_PAT` (R54, R35). -/
theorem rowWrite_reaches (v : Nibble) (s : State) (hv : v = 0#4 ∨ v ∈ s.cfg.rowPat.toList) :
    Reaches s (rowWrite (v.setWidth 32) s) := by
  refine (busAccess_reaches s).bind fun t ht => ?_
  refine ⟨rfl, rfl, rfl, rfl, rfl, rfl, ⟨0, rfl⟩, [.rowSel v], ?_⟩
  simpa [replayRowsel, replayDisp, Event.Legal, ht.cfg] using hv

/-- A read of the input register (R55): it ends in a state that follows, and hands on the word it read. -/
theorem inputRead_reaches (s : State) {f : Word × State → Except Stop State}
    (k : ∀ w t, Follows s t → Reaches t (f (w, t))) : Reaches s (inputRead s >>= f) := by
  unfold inputRead
  rw [bind_assoc]
  refine (busAccess_reaches s).bind fun t ht => ?_
  rw [nextInput_eq]
  have hf : Follows t ({ t with inputs := t.inputs.drop 1, draws := t.draws + t.freeDraws 1 }.record
      (.inRead (t.upcoming 0))) := by
    refine ⟨rfl, rfl, rfl, rfl, rfl, rfl, ⟨0, rfl⟩, [.inRead (t.upcoming 0)], ?_⟩
    simp [replayRowsel, replayDisp, Event.Legal]
  exact Reaches.of_follows hf (k _ _ (ht.trans hf))

/-- A write of a value of `encode` to a position (R145, R35). -/
theorem put_reaches (p : Digit) (ch : CharCode) (s : State) : Reaches s (put p (encodeChar s.cfg ch) s) := by
  refine (busAccess_reaches s).bind fun t ht => ?_
  rw [latchAt_routed]
  refine ⟨rfl, rfl, rfl, rfl, rfl, rfl, ⟨0, rfl⟩, [putEvent p (encodeChar s.cfg ch)], ?_⟩
  simp [replayRowsel, replayDisp, Event.Legal, putEvent, latchAt_routed, ht.cfg]

/-- The blank pattern is what `encode` gives every character outside the alphabet. -/
theorem blank_eq_encodeChar (cfg : Config) : blank = encodeChar cfg 0x00#8 := by
  have h : segOf cfg 0x00#8 = none := by
    simp only [segOf, List.lookup_eq_none_iff]
    intro p hp
    have := (List.of_mem_zip hp).1
    revert this
    generalize p.1 = x
    revert x
    decide
  simp [encodeChar, h]

theorem bufRead_reaches (a : BufAddr) (s : State) : Reaches s (bufRead a s) :=
  ⟨rfl, rfl, rfl, rfl, rfl, rfl, ⟨0, rfl⟩, [.bufRead a (s.buf.read a)], by
    simp [replayRowsel, replayDisp, Event.Legal]⟩

/-- Sampling a row performs no event and touches the two grids alone (R112). -/
theorem sampleRow_frame (r : Row) (w : Word) (s : State) :
    ∃ g h, sampleRow r w s = { s with cur := g, prev := h } := ⟨_, _, rfl⟩

/-! ### The actions of the operations -/

theorem rowActions_reach (r : Row) : ∀ a ∈ rowActions r, ∀ t, Reaches t (a t) := by
  simp only [rowActions, List.forall_mem_cons]
  refine ⟨fun t => rowWrite_reaches _ t (.inr ?_), fun t => ?_, fun t => rowWrite_reaches 0#4 t (.inl rfl), by simp⟩
  · exact Vector.mem_toList_iff.2 (Vector.getElem_mem r.isLt)
  · refine inputRead_reaches t fun w u _ => ?_
    obtain ⟨g, h, e⟩ := sampleRow_frame r w u
    change Follows u (sampleRow r w u)
    rw [e]
    exact ⟨rfl, rfl, rfl, rfl, rfl, rfl, ⟨0, rfl⟩, [], by simp [replayRowsel, replayDisp]⟩

theorem blankActions_reach (ps : List Digit) : ∀ a ∈ blankActions ps, ∀ t, Reaches t (a t) := by
  intro a ha t
  obtain ⟨p, -, rfl⟩ := List.mem_map.1 ha
  exact blank_eq_encodeChar t.cfg ▸ put_reaches p 0x00#8 t

theorem charActions_reach (x : BufAddr) (p : Digit) : ∀ a ∈ charActions x p, ∀ t, Reaches t (a t) := by
  simp only [charActions, List.forall_mem_cons]
  exact ⟨bufRead_reaches x, fun t => put_reaches p (t.buf.read x) t, by simp⟩

/-- Every action of every operation. -/
theorem actions_reach (i : Instr) (s : State) : ∀ a ∈ actions i s, ∀ t, Reaches t (a t) := by
  intro a ha t
  cases i with
  | scan => obtain ⟨r, -, ha⟩ := List.mem_flatMap.1 ha; exact rowActions_reach r a ha t
  | isPressed | justPressed | justReleased | encode => cases ha
  | writeAt ch pos =>
    simp only [actions, writeActions] at ha
    split at ha
    · cases List.mem_singleton.1 ha; exact put_reaches _ ch t
    · cases ha
  | clearAll => exact blankActions_reach _ a ha t
  | renderTrailing base len =>
    simp only [actions, trailingActions] at ha
    split at ha
    · exact blankActions_reach _ a ha t
    · rcases List.mem_append.1 ha with ha | ha
      · obtain ⟨i, -, ha⟩ := List.mem_flatMap.1 ha; exact charActions_reach _ _ a ha t
      · split at ha
        · exact blankActions_reach _ a ha t
        · cases ha
  | renderResult base len => obtain ⟨i, -, ha⟩ := List.mem_flatMap.1 ha; exact charActions_reach _ _ a ha t
  | sample =>
    cases List.mem_singleton.1 ha
    exact inputRead_reaches t fun _ u _ => Follows.refl u

/-- Where an operation stands after any number of its actions follows where it began, but that an access it waits for
has been used up. -/
theorem afterActions_follows (n : Nat) (i : Instr) (s : State) :
    ∃ bus, Follows s { afterActions n (actions i s) s with bus := bus } := by
  have h : Reaches s (runAll ((actions i s).take n) s) :=
    Reaches.sequence _ s fun a ha => actions_reach i s a (List.mem_of_mem_take ha)
  unfold afterActions
  match runAll ((actions i s).take n) s, h with
  | .ok t, h => exact ⟨t.bus, h⟩
  | .error (.hang t), h => exact ⟨_, h⟩

/-! ### One operation -/

theorem settle_ok (d : BitVec 8) (s : State) : settle (.ok (d, s)) = s.respond (d.setWidth 32) := by
  simp [settle, responseWord_done]

theorem raise_faulted (s : State) : s.raise .faulted = { s with responses := s.responses ++ [0x80030000#32] } := by
  simp only [State.raise, State.respond, Cause.code, responseWord_faulted]

theorem raise_reserved (cmd : Word) (s : State) :
    s.raise (.reservedCommand cmd) = { s with responses := s.responses ++ [0x80020000#32] } := by
  simp only [State.raise, State.respond, Cause.code, responseWord_reserved]

theorem raise_position (pos : Pos) (s : State) :
    s.raise (.positionRange pos) = { s with fault := true, responses := s.responses ++ [0x80010000#32] } := by
  simp only [State.raise, State.respond, Cause.code, responseWord_position]

theorem perform_faulted (body : State → Except Stop (BitVec 8 × State)) (s : State) (h : s.fault = true) :
    perform body s = .next { s with responses := s.responses ++ [0x80030000#32] } := by
  rw [perform, if_pos h, raise_faulted]

theorem perform_running (body : State → Except Stop (BitVec 8 × State)) (s : State) (h : s.fault = false) :
    perform body s = .next (settle (body s)) := by
  simp [perform, h]

end Sys2Proof.Machine
end

