-- ==== Sys2Proof/Laws/Exec.lean ====
section
/-! SUPPORT. Everything `exec` can do, once: an operation is refused, ends with a response, hangs, or (`WRITE_AT` alone)
raises `PositionRange` (00_scope.md R13). -/

namespace Sys2Proof.Machine

/-- The body of an operation: what it does once the block is known not to be faulted. -/
def body : Instr → State → Except Stop (BitVec 8 × State)
  | .scan => fun s => thenZero (rows.foldlM scanRow s)
  | .isPressed row col => fun s => .ok (boolData (s.pressed row col), s)
  | .justPressed row col => fun s => .ok (boolData (s.justPressed row col), s)
  | .justReleased row col => fun s => .ok (boolData (s.justReleased row col), s)
  | .encode ch => fun s => .ok (encodeChar s.cfg ch, s)
  | .writeAt ch pos => fun s => thenZero (writeAt ch pos s)
  | .clearAll => fun s => thenZero (blankDigits digits s)
  | .renderTrailing base len => fun s => thenZero (renderTrailing base len s)
  | .renderResult base len => fun s => thenZero (showResult base len s)
  | .sample => fun s => do
    let (w, s) ← inputRead s
    .ok ((battField w).setWidth 8, s)

theorem exec_eq_perform (i : Instr) (s : State) : exec i s = perform (body i) s := by
  cases i with
  | scan => simp only [exec, execScan, body, runAll_scanActions]
  | clearAll => simp only [exec, execClearAll, body, runAll_blankActions]
  | renderTrailing base len => simp only [exec, execRenderTrailing, body, runAll_trailingActions]
  | renderResult base len => simp only [exec, execRenderResult, body, runAll_resultActions]
  | isPressed | justPressed | justReleased | encode | writeAt | sample => rfl

/-- A sequence of accesses followed by `respond(0x00)`. -/
theorem thenZero_cases {s : State} {r : Except Stop State} (h : Reaches s r) :
    (∃ t, thenZero r = .ok (0#8, t) ∧ Follows s t) ∨
    (∃ t, thenZero r = .error (.hang t) ∧ Follows s { t with bus := false :: t.bus }) := by
  match r with
  | .ok t => exact .inl ⟨t, rfl, h⟩
  | .error (.hang t) => exact .inr ⟨t, rfl, h⟩

theorem inputRead_cases (s : State) :
    (∃ w t, inputRead s = .ok (w, t) ∧ Follows s t) ∨
    (∃ t, inputRead s = .error (.hang t) ∧ Follows s { t with bus := false :: t.bus }) := by
  have h : Reaches s (inputRead s >>= fun p => .ok p.2) := inputRead_reaches s fun _ t _ => Follows.refl t
  match e : inputRead s with
  | .ok (w, t) => rw [e] at h; exact .inl ⟨w, t, rfl, h⟩
  | .error (.hang t) => rw [e] at h; exact .inr ⟨t, rfl, h⟩
  | .error (.raised _ _) => rw [e] at h; exact h.elim

/-- How an operation's body ends. -/
theorem body_cases (i : Instr) (s : State) :
    (∃ d t, body i s = .ok (d, t) ∧ Follows s t) ∨
    (∃ t, body i s = .error (.hang t) ∧ Follows s { t with bus := false :: t.bus }) ∨
    (∃ ch pos, i = .writeAt ch pos ∧ 5 < pos.val ∧ body i s = .error (.raised (.positionRange pos) s)) := by
  have zero : ∀ {r : Except Stop State}, Reaches s r → body i s = thenZero r →
      (∃ d t, body i s = .ok (d, t) ∧ Follows s t) ∨
      (∃ t, body i s = .error (.hang t) ∧ Follows s { t with bus := false :: t.bus }) ∨
      (∃ ch pos, i = .writeAt ch pos ∧ 5 < pos.val ∧ body i s = .error (.raised (.positionRange pos) s)) := by
    intro r h e
    rcases thenZero_cases h with ⟨t, h1, h2⟩ | ⟨t, h1, h2⟩
    · exact .inl ⟨_, t, e.trans h1, h2⟩
    · exact .inr (.inl ⟨t, e.trans h1, h2⟩)
  have acts : ∀ {r : Except Stop State}, runAll (actions i s) s = r → Reaches s r :=
    fun e => e ▸ Reaches.sequence _ s (actions_reach i s)
  cases i with
  | scan => exact zero (acts (runAll_scanActions s)) rfl
  | isPressed row col => exact .inl ⟨_, s, rfl, Follows.refl s⟩
  | justPressed row col => exact .inl ⟨_, s, rfl, Follows.refl s⟩
  | justReleased row col => exact .inl ⟨_, s, rfl, Follows.refl s⟩
  | encode ch => exact .inl ⟨_, s, rfl, Follows.refl s⟩
  | writeAt ch pos =>
    by_cases h : pos.val ≤ 5
    · exact zero (put_reaches ⟨pos.val, by omega⟩ ch s) (by simp only [body, writeAt_in h])
    · exact .inr (.inr ⟨ch, pos, rfl, by omega, by simp only [body, writeAt_raises (Nat.not_le.1 h)]; rfl⟩)
  | clearAll => exact zero (acts (runAll_blankActions digits s)) rfl
  | renderTrailing base len => exact zero (acts (runAll_trailingActions base len s)) rfl
  | renderResult base len => exact zero (acts (runAll_resultActions base len s)) rfl
  | sample =>
    rcases inputRead_cases s with ⟨w, t, h1, h2⟩ | ⟨t, h1, h2⟩
    · exact .inl ⟨_, t, by simp only [body, h1]; rfl, h2⟩
    · exact .inr (.inl ⟨t, by simp only [body, h1]; rfl, h2⟩)

/-- The inversion of `exec`: everything an operation can do (R13). -/
theorem exec_cases {i : Instr} {s t : State} (h : exec i s = .next t) :
    (s.fault = true ∧ t = { s with responses := s.responses ++ [0x80030000#32] }) ∨
    (s.fault = false ∧ ∃ d : BitVec 8, ∃ u, body i s = .ok (d, u) ∧ Follows s u ∧ t = u.respond (d.setWidth 32)) ∨
    (s.fault = false ∧ ∃ u, body i s = .error (.hang u) ∧ Follows s { u with bus := false :: u.bus } ∧ t = { u with hung := true }) ∨
    (s.fault = false ∧ ∃ ch pos, i = .writeAt ch pos ∧ 5 < pos.val ∧
      t = { s with fault := true, responses := s.responses ++ [0x80010000#32] }) := by
  rw [exec_eq_perform] at h
  by_cases hf : s.fault = true
  · rw [perform_faulted _ _ hf] at h
    cases h
    exact .inl ⟨hf, rfl⟩
  · rw [Bool.not_eq_true] at hf
    rw [perform_running _ _ hf] at h
    cases h
    rcases body_cases i s with ⟨d, u, h1, h2⟩ | ⟨u, h1, h2⟩ | ⟨ch, pos, h1, h2, h3⟩
    · exact .inr (.inl ⟨hf, d, u, h1, h2, by rw [h1, settle_ok]⟩)
    · exact .inr (.inr (.inl ⟨hf, u, h1, h2, by rw [h1]; rfl⟩))
    · exact .inr (.inr (.inr ⟨hf, ch, pos, h1, h2, by rw [h3, settle, raise_position]⟩))

end Sys2Proof.Machine
end

