-- ==== Sys2Proof/Laws/Actions.lean ====
section
/-! SUPPORT. An action of an operation is one event (00_scope.md R11): so the events of an operation are its actions, one
for one, and an operation cut off after `n` of them has made its first `n` events (70_reset_and_hazards.md R200). -/

namespace Sys2Proof.Machine

/-- `t` comes after `s` by exactly these events, with the draws and the accesses that they are. -/
structure After (events : List Event) (s t : State) : Prop where
  trace : t.trace = s.trace ++ events
  inputs : t.inputs = s.inputs.drop (countReads events)
  bus : t.bus = s.bus.drop (countAccesses events)

theorem After.refl (s : State) : After [] s s := ⟨by simp, rfl, rfl⟩

theorem After.trans {k l : List Event} {s t u : State} (h : After k s t) (m : After l t u) : After (k ++ l) s u := by
  refine ⟨?_, ?_, ?_⟩
  · rw [m.trace, h.trace, List.append_assoc]
  · rw [m.inputs, h.inputs, List.drop_drop]; simp [countReads]
  · rw [m.bus, h.bus, List.drop_drop]; simp [countAccesses]

/-- An action is one event, or waits for an access that never completes and is none. -/
def IsOneEvent (a : Action) : Prop :=
  ∀ s, (∃ e t, a s = .ok t ∧ After [e] s t) ∨
    ∃ t, a s = .error (.hang t) ∧ t.trace = s.trace ∧ t.inputs = s.inputs ∧ s.bus = false :: t.bus

theorem busAccess_cases (s : State) : busAccess s = .ok { s with bus := s.bus.drop 1 } ∨
    ∃ rest, s.bus = false :: rest ∧ busAccess s = .error (.hang { s with bus := rest }) := by
  obtain ⟨_, _, _, _, _, _, _, _, _, _, bus, _, _, _⟩ := s
  rcases bus with _ | ⟨_ | _, rest⟩
  · exact .inl rfl
  · exact .inr ⟨rest, rfl, rfl⟩
  · exact .inl rfl

/-- An access, and something done once it completes that records one event. -/
theorem IsOneEvent.of_access {a : Action} {f : State → State → State}
    (ha : ∀ s, a s = busAccess s >>= fun t => .ok (f s t))
    (hf : ∀ s t, ∃ e, (f s t).trace = t.trace ++ [e] ∧ (f s t).inputs = t.inputs.drop (countReads [e]) ∧
      (f s t).bus = t.bus ∧ countAccesses [e] = 1) : IsOneEvent a := by
  intro s
  rw [ha]
  rcases busAccess_cases s with h | ⟨rest, e, h⟩
  · rw [h]
    obtain ⟨e, h1, h2, h3, h4⟩ := hf s { s with bus := s.bus.drop 1 }
    exact .inl ⟨e, _, rfl, h1, h2, h3.trans (by rw [h4])⟩
  · rw [h]
    exact .inr ⟨{ s with bus := rest }, rfl, rfl, rfl, e⟩

theorem rowWrite_one (v : Word) : IsOneEvent (rowWrite v) :=
  .of_access (fun _ => rfl) fun _ _ => ⟨.rowSel (v.extractLsb' 0 4), rfl, rfl, rfl, rfl⟩

theorem put_one (p : Digit) (v : State → Pattern) : IsOneEvent fun s => put p (v s) s :=
  .of_access (f := fun s t => (t.setLatch p (v s)).record (putEvent p (v s)))
    (fun s => bind_congr fun t => by rw [latchAt_routed]; rfl) fun s _ => ⟨putEvent p (v s), rfl, rfl, rfl, rfl⟩

theorem bufRead_one (a : BufAddr) : IsOneEvent (bufRead a) :=
  fun s => .inl ⟨.bufRead a (s.buf.read a), _, rfl, rfl, rfl, rfl⟩

/-- A read of the pins, and something done with the word that touches neither the trace nor the environment. -/
theorem inputRead_one {f : Word → State → State}
    (h : ∀ w s, (f w s).trace = s.trace ∧ (f w s).inputs = s.inputs ∧ (f w s).bus = s.bus) :
    IsOneEvent fun s => inputRead s >>= fun p => .ok (f p.1 p.2) :=
  .of_access (f := fun _ t => f (nextInput t).1 ((nextInput t).2.record (.inRead (nextInput t).1)))
    (fun s => by rw [inputRead, bind_assoc]; rfl) fun _ t => by
      rw [nextInput_eq]
      obtain ⟨h1, h2, h3⟩ := h (t.upcoming 0) (({ t with
        inputs := t.inputs.drop 1, draws := t.draws + t.freeDraws 1 } : State).record (.inRead (t.upcoming 0)))
      exact ⟨.inRead (t.upcoming 0), h1, h2, h3, rfl⟩

theorem rowActions_one (r : Row) : ∀ a ∈ rowActions r, IsOneEvent a := by
  simp only [rowActions, List.forall_mem_cons]
  exact ⟨fun t => rowWrite_one _ t, inputRead_one fun _ _ => ⟨rfl, rfl, rfl⟩, rowWrite_one _, by simp⟩

theorem blankActions_one (ps : List Digit) : ∀ a ∈ blankActions ps, IsOneEvent a := by
  intro a ha
  obtain ⟨p, -, rfl⟩ := List.mem_map.1 ha
  exact put_one p fun _ => blank

theorem charActions_one (x : BufAddr) (p : Digit) : ∀ a ∈ charActions x p, IsOneEvent a := by
  simp only [charActions, List.forall_mem_cons]
  exact ⟨bufRead_one x, put_one p _, by simp⟩

/-- Every action of every operation is one event. -/
theorem actions_one (i : Instr) (s : State) : ∀ a ∈ actions i s, IsOneEvent a := by
  intro a ha
  cases i with
  | scan => obtain ⟨r, -, ha⟩ := List.mem_flatMap.1 ha; exact rowActions_one r a ha
  | isPressed | justPressed | justReleased | encode => cases ha
  | writeAt ch pos =>
    simp only [actions, writeActions] at ha
    split at ha
    · cases List.mem_singleton.1 ha; exact put_one _ _
    · cases ha
  | clearAll => exact blankActions_one _ a ha
  | renderTrailing base len =>
    simp only [actions, trailingActions] at ha
    split at ha
    · exact blankActions_one _ a ha
    · rcases List.mem_append.1 ha with ha | ha
      · obtain ⟨i, -, ha⟩ := List.mem_flatMap.1 ha; exact charActions_one _ _ a ha
      · split at ha
        · exact blankActions_one _ a ha
        · cases ha
  | renderResult base len => obtain ⟨i, -, ha⟩ := List.mem_flatMap.1 ha; exact charActions_one _ _ a ha
  | sample =>
    cases List.mem_singleton.1 ha
    exact inputRead_one (f := fun _ s => s) fun _ _ => ⟨rfl, rfl, rfl⟩

/-- All that a sequence of one-event actions can do, and where it stands after its first `n`: it makes `events`, one for
each action it has completed; cut off after `n` of them it has made the first `n`; and with nothing left to cut it
stands where the whole sequence ends or waits. -/
theorem runAll_events : ∀ (l : List Action) (s : State), (∀ a ∈ l, IsOneEvent a) →
    ∃ events,
      ((∃ t, runAll l s = .ok t ∧ events.length = l.length ∧ After events s t) ∨
       (∃ t, runAll l s = .error (.hang t) ∧ events.length < l.length ∧ t.trace = s.trace ++ events ∧
         t.inputs = s.inputs.drop (countReads events) ∧ s.bus.drop (countAccesses events) = false :: t.bus)) ∧
      ∀ n, (n ≤ events.length → ∃ t, runAll (l.take n) s = .ok t ∧ After (events.take n) s t) ∧
        (events.length < n → runAll (l.take n) s = runAll l s)
  | [], s, _ => ⟨[], .inl ⟨s, rfl, rfl, After.refl s⟩, fun n => ⟨fun h => ⟨s, by simp [runAll_nil], by simpa using After.refl s⟩,
      fun _ => by simp⟩⟩
  | a :: l, s, k => by
    rcases k a (List.mem_cons_self ..) s with ⟨e, u, hu, f⟩ | ⟨u, hu, h1, h2, h3⟩
    · obtain ⟨ev, ends, cut⟩ := runAll_events l u fun b hb => k b (List.mem_cons_of_mem _ hb)
      refine ⟨e :: ev, ?_, fun n => ?_⟩
      · rw [runAll_cons, hu, Stop.ok_bind]
        rcases ends with ⟨t, ht, len, g⟩ | ⟨t, ht, len, g1, g2, g3⟩
        · exact .inl ⟨t, ht, by simp [len], f.trans g⟩
        · refine .inr ⟨t, ht, by simpa using len, ?_, ?_, ?_⟩
          · rw [g1, f.trace, List.append_assoc]; rfl
          · rw [g2, f.inputs, List.drop_drop]; congr 1
            exact (List.countP_append (l₁ := [e]) (l₂ := ev)).symm
          · rw [← g3, f.bus, List.drop_drop]; congr 1
            exact List.countP_append (l₁ := [e]) (l₂ := ev)
      · match n with
        | 0 => exact ⟨fun _ => ⟨s, rfl, After.refl s⟩, fun h => by simp at h⟩
        | n + 1 =>
          simp only [List.take_succ_cons, runAll_cons, hu, Stop.ok_bind, List.length_cons, Nat.add_le_add_iff_right,
            Nat.add_lt_add_iff_right]
          refine ⟨fun h => ?_, (cut n).2⟩
          obtain ⟨t, ht, g⟩ := (cut n).1 h
          exact ⟨t, ht, f.trans g⟩
    · refine ⟨[], .inr ⟨u, by rw [runAll_cons, hu, Stop.error_bind], by simp, by simp [h1], h2, h3⟩, fun n => ⟨fun h => ?_, fun h => ?_⟩⟩
      · obtain rfl : n = 0 := by simpa using h
        exact ⟨s, rfl, After.refl s⟩
      · match n, h with
        | n + 1, _ => rw [List.take_succ_cons, runAll_cons, runAll_cons, hu, Stop.error_bind, Stop.error_bind]

/-- An operation on a block that is not faulted makes its actions, then answers; or it waits for ever in one of them. -/
theorem exec_actions {i : Instr} {s t : State} (hf : s.fault = false) (hd : i.inDomain = true)
    (h : exec i s = .next t) :
    (∃ u d, runAll (actions i s) s = .ok u ∧ t = u.respond d) ∨
    ∃ u, runAll (actions i s) s = .error (.hang u) ∧ t = { u with hung := true } := by
  rw [exec_eq_perform, perform_running _ _ hf] at h
  injection h with h
  have zero : ∀ {r : Except Stop State}, Reaches s r → runAll (actions i s) s = r → body i s = thenZero r →
      (∃ u d, runAll (actions i s) s = .ok u ∧ t = u.respond d) ∨
      ∃ u, runAll (actions i s) s = .error (.hang u) ∧ t = { u with hung := true } := by
    intro r hr e b
    rw [b] at h
    match r, hr with
    | .ok u, _ => exact .inl ⟨u, _, e, h.symm⟩
    | .error (.hang u), _ => exact .inr ⟨u, e, h.symm⟩
  have acts : ∀ {r : Except Stop State}, runAll (actions i s) s = r → Reaches s r :=
    fun e => e ▸ Reaches.sequence _ s (actions_reach i s)
  cases i with
  | scan => exact zero (acts (runAll_scanActions s)) (runAll_scanActions s) rfl
  | isPressed | justPressed | justReleased | encode => exact .inl ⟨s, _, rfl, h.symm⟩
  | writeAt ch pos =>
    have hp : pos.val ≤ 5 := by simpa [Instr.inDomain] using hd
    have e : runAll (actions (.writeAt ch pos) s) s = writeAt ch pos s := by
      rw [writeAt, if_neg (by omega)]; rfl
    exact zero (acts e) e rfl
  | clearAll => exact zero (acts (runAll_blankActions digits s)) (runAll_blankActions digits s) rfl
  | renderTrailing base len =>
    exact zero (acts (runAll_trailingActions base len s)) (runAll_trailingActions base len s) rfl
  | renderResult base len => exact zero (acts (runAll_resultActions base len s)) (runAll_resultActions base len s) rfl
  | sample =>
    have e : runAll (actions .sample s) s = inputRead s >>= fun p => .ok p.2 := runAll_single _ s
    rw [e]
    simp only [body] at h
    match r : inputRead s, h with
    | .ok (w, u), h => exact .inl ⟨u, _, rfl, h.symm⟩
    | .error (.hang u), h => exact .inr ⟨u, rfl, h.symm⟩
    | .error (.raised c u), h =>
      rcases inputRead_cases s with ⟨_, _, e, _⟩ | ⟨_, e, _⟩ <;> (rw [r] at e; cases e)

end Sys2Proof.Machine
end

