-- ==== Sys2Proof/Laws/Decode.lean ====
section
/-! SUPPORT. The fields of the five formats, read back from the words that hold them (30_encoding.md R83 to R87), and a
word put together again from its fields. -/

namespace Sys2Proof

open BitVec

/-! ### Fields of the words the encoder makes -/

@[simp] theorem opField_wordN (op : BitVec 4) : opField (wordN op) = op := by
  unfold opField wordN
  rw [extractLsb'_append_eq_of_le (by omega)]; simp

@[simp] theorem opField_wordK (op : BitVec 4) (r : Row) (c : Col) : opField (wordK op r c) = op := by
  unfold opField wordK
  rw [extractLsb'_append_eq_of_le (by omega), extractLsb'_append_eq_of_le (by omega),
    extractLsb'_append_eq_of_le (by omega)]; simp

@[simp] theorem opField_wordC (op : BitVec 4) (ch : CharCode) : opField (wordC op ch) = op := by
  unfold opField wordC
  rw [extractLsb'_append_eq_of_le (by omega), extractLsb'_append_eq_of_le (by omega)]; simp

@[simp] theorem opField_wordP (op : BitVec 4) (pos : Pos) (ch : CharCode) : opField (wordP op pos ch) = op := by
  unfold opField wordP
  rw [extractLsb'_append_eq_of_le (by omega), extractLsb'_append_eq_of_le (by omega),
    extractLsb'_append_eq_of_le (by omega)]; simp

@[simp] theorem opField_wordB (op : BitVec 4) (len : Len) (base : BufAddr) : opField (wordB op len base) = op := by
  unfold opField wordB
  rw [extractLsb'_append_eq_of_le (by omega), extractLsb'_append_eq_of_le (by omega)]; simp

@[simp] theorem formatN_wordN (op : BitVec 4) (i : Instr) : formatN (wordN op) i = .ok i := by
  unfold formatN wordN
  rw [extractLsb'_append_eq_of_add_le (by omega)]; simp

@[simp] theorem formatK_wordK (op : BitVec 4) (r : Row) (c : Col) (i : Instr) :
    formatK (wordK op r c) i = .ok i := by
  unfold formatK wordK
  rw [extractLsb'_append_eq_of_le (by omega), extractLsb'_append_eq_of_le (by omega),
    extractLsb'_append_eq_of_add_le (by omega)]; simp

@[simp] theorem formatC_wordC (op : BitVec 4) (ch : CharCode) (i : Instr) : formatC (wordC op ch) i = .ok i := by
  unfold formatC wordC
  rw [extractLsb'_append_eq_of_le (by omega), extractLsb'_append_eq_of_add_le (by omega)]; simp

@[simp] theorem formatP_wordP (op : BitVec 4) (pos : Pos) (ch : CharCode) (i : Instr) :
    formatP (wordP op pos ch) i = .ok i := by
  unfold formatP wordP
  rw [extractLsb'_append_eq_of_le (by omega), extractLsb'_append_eq_of_le (by omega),
    extractLsb'_append_eq_of_add_le (by omega)]; simp

@[simp] theorem rowField_wordK (op : BitVec 4) (r : Row) (c : Col) : rowField (wordK op r c) = r := by
  unfold rowField wordK
  rw [extractLsb'_append_eq_of_le (by omega), extractLsb'_append_eq_of_add_le (by omega)]; simp

@[simp] theorem colField_wordK (op : BitVec 4) (r : Row) (c : Col) : colField (wordK op r c) = c := by
  unfold colField wordK
  rw [extractLsb'_append_eq_of_add_le (by omega)]; simp

@[simp] theorem chField_wordC (op : BitVec 4) (ch : CharCode) : chField (wordC op ch) = ch := by
  unfold chField wordC
  rw [extractLsb'_append_eq_of_add_le (by omega)]; simp

@[simp] theorem chField_wordP (op : BitVec 4) (pos : Pos) (ch : CharCode) : chField (wordP op pos ch) = ch := by
  unfold chField wordP
  rw [extractLsb'_append_eq_of_add_le (by omega)]; simp

@[simp] theorem posField_wordP (op : BitVec 4) (pos : Pos) (ch : CharCode) : posField (wordP op pos ch) = pos := by
  unfold posField wordP
  rw [extractLsb'_append_eq_of_le (by omega), extractLsb'_append_eq_of_add_le (by omega)]; simp

@[simp] theorem lenField_wordB (op : BitVec 4) (len : Len) (base : BufAddr) : lenField (wordB op len base) = len := by
  unfold lenField wordB
  rw [extractLsb'_append_eq_of_le (by omega), extractLsb'_append_eq_of_add_le (by omega)]; simp

@[simp] theorem baseField_wordB (op : BitVec 4) (len : Len) (base : BufAddr) :
    baseField (wordB op len base) = base := by
  unfold baseField wordB
  rw [extractLsb'_append_eq_of_add_le (by omega)]; simp

/-! ### A word from its fields -/

theorem wordN_fields (w : Word) (h : w.extractLsb' 0 28 = 0#28) : wordN (opField w) = w := by
  unfold wordN opField
  rw [← h, extractLsb'_append_extractLsb'_eq_extractLsb' (by omega)]; simp

theorem wordK_fields (w : Word) (h : w.extractLsb' 4 24 = 0#24) : wordK (opField w) (rowField w) (colField w) = w := by
  unfold wordK opField rowField colField
  rw [← h, extractLsb'_append_extractLsb'_eq_extractLsb' (by omega)]
  change (w.extractLsb' 4 28 ++ w.extractLsb' 2 2) ++ w.extractLsb' 0 2 = w
  rw [extractLsb'_append_extractLsb'_eq_extractLsb' (by omega),
    extractLsb'_append_extractLsb'_eq_extractLsb' (by omega)]; simp

theorem wordC_fields (w : Word) (h : w.extractLsb' 8 20 = 0#20) : wordC (opField w) (chField w) = w := by
  unfold wordC opField chField
  rw [← h, extractLsb'_append_extractLsb'_eq_extractLsb' (by omega),
    extractLsb'_append_extractLsb'_eq_extractLsb' (by omega)]; simp

theorem wordP_fields (w : Word) (h : w.extractLsb' 11 17 = 0#17) : wordP (opField w) (posField w) (chField w) = w := by
  unfold wordP opField posField chField
  rw [← h, extractLsb'_append_extractLsb'_eq_extractLsb' (by omega)]
  change (w.extractLsb' 11 21 ++ w.extractLsb' 8 3) ++ w.extractLsb' 0 8 = w
  rw [extractLsb'_append_extractLsb'_eq_extractLsb' (by omega),
    extractLsb'_append_extractLsb'_eq_extractLsb' (by omega)]; simp

theorem wordB_fields (w : Word) : wordB (opField w) (lenField w) (baseField w) = w := by
  unfold wordB opField lenField baseField
  change (w.extractLsb' 28 4 ++ w.extractLsb' 16 12) ++ w.extractLsb' 0 16 = w
  rw [extractLsb'_append_extractLsb'_eq_extractLsb' (by omega),
    extractLsb'_append_extractLsb'_eq_extractLsb' (by omega)]; simp

/-! ### The words of the formats under the masks of the table R90 -/

theorem append_and_zeros {v w : Nat} (x a : BitVec v) (y : BitVec w) :
    (x ++ y) &&& (a ++ 0#w) = (x &&& a) ++ 0#w := by
  simp [and_append]

theorem wordK_masked (op : BitVec 4) (r : Row) (c : Col) : wordK op r c &&& 0xFFFFFFF0#32 = wordN op := by
  have mask : 0xFFFFFFF0#32 = (allOnes 28 ++ 0#2 ++ 0#2 : BitVec 32) := by decide
  have zeros : wordN op = (op ++ 0#24 ++ 0#2 ++ 0#2 : BitVec 32) := by revert op; decide
  rw [mask, zeros]
  exact (append_and_zeros _ _ _).trans (by rw [append_and_zeros, and_allOnes])

theorem wordC_masked (op : BitVec 4) (ch : CharCode) : wordC op ch &&& 0xFFFFFF00#32 = wordN op := by
  have mask : 0xFFFFFF00#32 = (allOnes 24 ++ 0#8 : BitVec 32) := by decide
  have zeros : wordN op = (op ++ 0#20 ++ 0#8 : BitVec 32) := by revert op; decide
  rw [mask, zeros]
  exact (append_and_zeros _ _ _).trans (by rw [and_allOnes])

theorem wordP_masked (op : BitVec 4) (pos : Pos) (ch : CharCode) : wordP op pos ch &&& 0xFFFFF800#32 = wordN op := by
  have mask : 0xFFFFF800#32 = (allOnes 21 ++ 0#3 ++ 0#8 : BitVec 32) := by decide
  have zeros : wordN op = (op ++ 0#17 ++ 0#3 ++ 0#8 : BitVec 32) := by revert op; decide
  rw [mask, zeros]
  exact (append_and_zeros _ _ _).trans (by rw [append_and_zeros, and_allOnes])

theorem wordB_masked (op : BitVec 4) (len : Len) (base : BufAddr) : wordB op len base &&& 0xF0000000#32 = wordN op := by
  have mask : 0xF0000000#32 = (allOnes 4 ++ 0#12 ++ 0#16 : BitVec 32) := by decide
  have zeros : wordN op = (op ++ 0#12 ++ 0#16 : BitVec 32) := by revert op; decide
  rw [mask, zeros]
  exact (append_and_zeros _ _ _).trans (by rw [append_and_zeros, and_allOnes])

/-- R87: the fields of the buffer format at their bit places. -/
theorem wordB_places (op : BitVec 4) (len : Len) (base : BufAddr) : wordB op len base =
    (op.setWidth 32 <<< 28) ||| (BitVec.ofNat 32 len.val <<< 16) ||| base.setWidth 32 := by
  apply BitVec.eq_of_getLsbD_eq
  intro i hi
  have hl : ∀ j, 12 ≤ j → len.val.testBit j = false := fun j hj =>
    Nat.testBit_lt_two_pow (Nat.lt_of_lt_of_le len.isLt (Nat.pow_le_pow_right (by decide) hj : 2 ^ 12 ≤ 2 ^ j))
  have e : ∀ j, (BitVec.ofFin len : BitVec 12).getLsbD j = len.val.testBit j := fun j => rfl
  simp only [wordB, BitVec.getLsbD_or, BitVec.getLsbD_append, BitVec.getLsbD_shiftLeft,
    BitVec.getLsbD_setWidth, BitVec.getLsbD_ofNat, e]
  rcases Nat.lt_or_ge i 16 with h | h
  · have h2 : i < 28 := by omega
    simp [h, h2]; omega
  · have h0 : ¬ i < 16 := by omega
    have hb : base.getLsbD i = false := BitVec.getLsbD_of_ge _ _ h
    rcases Nat.lt_or_ge i 28 with k | k
    · have : i - 16 < 12 := by omega
      have q : i - 16 < 32 := by omega
      simp [h0, k, this, hb, q, hi]
    · have k1 : ¬ i < 28 := by omega
      have k2 : ¬ i - 16 < 12 := by omega
      have k3 := hl (i - 16) (by omega)
      have k4 : i - 16 - 12 = i - 28 := by omega
      have q : i - 28 < 32 := by omega
      simp [h0, k1, k2, k3, k4, hb, hi, q]

end Sys2Proof
end

