-- ==== Sys2Proof/Laws/Display.lean ====
section
/-! SUPPORT. What the sequences of `put`s of the display driver keep (42_display_driver.md R145, R149): a relation that
every `put` satisfies, and that is reflexive and transitive, holds of every such sequence, whether it ends or hangs. -/

namespace Sys2Proof.Machine

/-- A sequence of accesses ends or hangs in a state that `R` relates to the first; it raises nothing. -/
def EndsWithin (R : State → State → Prop) (s : State) : Except Stop State → Prop
  | .ok t => R s t
  | .error (.hang t) => R s t
  | .error (.raised _ _) => False

section
variable {R : State → State → Prop}

theorem EndsWithin.bind (trans : ∀ a b c, R a b → R b c → R a c) {s : State} {r : Except Stop State}
    {f : State → Except Stop State} (h : EndsWithin R s r) (k : ∀ t, EndsWithin R t (f t)) :
    EndsWithin R s (r >>= f) := by
  match r with
  | .error (.hang _) => exact h
  | .ok t =>
    have kt := k t
    change EndsWithin R s (f t)
    match f t, kt with
    | .ok _, kt => exact trans _ _ _ h kt
    | .error (.hang _), kt => exact trans _ _ _ h kt

theorem EndsWithin.foldlM (refl : ∀ s, R s s) (trans : ∀ a b c, R a b → R b c → R a c) {α : Type}
    {f : State → α → Except Stop State} :
    ∀ (l : List α) (s : State), (∀ a ∈ l, ∀ t, EndsWithin R t (f t a)) → EndsWithin R s (l.foldlM f s)
  | [], s, _ => refl s
  | a :: l, s, k => by
    rw [List.foldlM_cons]
    exact EndsWithin.bind trans (k a (List.mem_cons_self ..) s) fun t =>
      EndsWithin.foldlM refl trans l t fun b hb => k b (List.mem_cons_of_mem _ hb)

end

/-- `t` differs from `s` in the latches, the trace and the accesses used up alone. -/
def OnlyDisplay (s t : State) : Prop := t = { s with disp := t.disp, bus := t.bus, trace := t.trace }

theorem OnlyDisplay.refl (s : State) : OnlyDisplay s s := rfl

theorem OnlyDisplay.trans {a b c : State} (h : OnlyDisplay a b) (k : OnlyDisplay b c) : OnlyDisplay a c := by
  unfold OnlyDisplay at *
  rw [h] at k
  exact k

/-- What a `put` does, exactly: it uses up one access, and if that completes, writes its latch and records its event. -/
theorem put_eq (p : Digit) (v : Pattern) (s : State) : put p v s =
    match s.bus with
    | false :: rest => .error (.hang { s with bus := rest })
    | _ => .ok { s with bus := s.bus.drop 1, disp := s.disp.set p v, trace := s.trace ++ [putEvent p v] } := by
  obtain ⟨_, _, _, _, _, _, _, _, _, _, bus, _, _, _⟩ := s
  match bus with
  | [] => simp only [put, displayWrite, busAccess, latchAt_routed]; rfl
  | true :: rest => simp only [put, displayWrite, busAccess, latchAt_routed]; rfl
  | false :: rest => simp only [put, displayWrite, busAccess]; rfl

theorem put_only (p : Digit) (v : Pattern) (s : State) : EndsWithin OnlyDisplay s (put p v s) := by
  rw [put_eq]; split <;> rfl

theorem showChar_only (a : BufAddr) (p : Digit) (s : State) : EndsWithin OnlyDisplay s (showChar a p s) := by
  rw [showChar_eq, put_eq]; split <;> rfl

/-- A `put` leaves every other latch alone. -/
theorem put_other (q p : Digit) (h : q ≠ p) (v : Pattern) (s : State) :
    EndsWithin (fun s t => t.disp[q] = s.disp[q]) s (put p v s) := by
  have hv : p.val ≠ q.val := fun e => h (Fin.ext e.symm)
  rw [put_eq]; split <;> simp [EndsWithin, hv]

theorem showChar_other (q p : Digit) (h : q ≠ p) (a : BufAddr) (s : State) :
    EndsWithin (fun s t => t.disp[q] = s.disp[q]) s (showChar a p s) :=
  showChar_eq a p s ▸ put_other q p h _ (s.record (.bufRead a (s.buf.read a)))

theorem blankDigits_only (ps : List Digit) (s : State) : EndsWithin OnlyDisplay s (blankDigits ps s) :=
  EndsWithin.foldlM OnlyDisplay.refl (fun _ _ _ => OnlyDisplay.trans) ps s fun _ _ _ => put_only _ _ _

theorem showTrailing_only (base : BufAddr) (len : Len) (s : State) :
    EndsWithin OnlyDisplay s (showTrailing base len s) :=
  EndsWithin.foldlM OnlyDisplay.refl (fun _ _ _ => OnlyDisplay.trans) _ s fun _ _ _ => showChar_only _ _ _

theorem showResult_only (base : BufAddr) (len : Len) (s : State) : EndsWithin OnlyDisplay s (showResult base len s) :=
  EndsWithin.foldlM OnlyDisplay.refl (fun _ _ _ => OnlyDisplay.trans) _ s fun _ _ _ => showChar_only _ _ _

theorem renderTrailing_only (base : BufAddr) (len : Len) (s : State) :
    EndsWithin OnlyDisplay s (renderTrailing base len s) := by
  unfold renderTrailing
  split
  · exact blankDigits_only _ s
  · refine EndsWithin.bind (R := OnlyDisplay) (fun _ _ _ => OnlyDisplay.trans) (showTrailing_only base len s) fun t => ?_
    split
    · exact blankDigits_only _ t
    · exact OnlyDisplay.refl t

/-! ### Sequences whose accesses complete, exactly -/

/-- Blanking some positions, all of whose accesses complete (R142). -/
theorem blankDigits_answered : ∀ (ps : List Digit) (s : State), s.busAnswers ps.length = true →
    blankDigits ps s = .ok { s with
      bus := s.bus.drop ps.length
      disp := ps.foldl (fun (d : Vector Pattern 6) (p : Digit) => d.set p blank) s.disp
      trace := s.trace ++ ps.map fun p => putEvent p blank }
  | [], s, _ => by simp [blankDigits]; rfl
  | p :: ps, s, h => by
    have ih := blankDigits_answered ps { s with
      bus := s.bus.drop 1, disp := s.disp.set p blank, trace := s.trace ++ [putEvent p blank] }
      (busAnswers_after (s := s) (k := 1) rfl (by rw [Nat.add_comm]; exact h))
    unfold blankDigits at ih ⊢
    rw [List.foldlM_cons, put_answered p blank s ps.length h]
    refine ih.trans ?_
    simp

/-- Showing some characters, all of whose accesses complete (R143, R144). -/
theorem showChars_answered (addr : Digit → BufAddr) (pos : Digit → Digit) :
    ∀ (ps : List Digit) (s : State), s.busAnswers ps.length = true →
    ps.foldlM (fun s i => showChar (addr i) (pos i) s) s = .ok { s with
      bus := s.bus.drop ps.length
      disp := ps.foldl (fun (d : Vector Pattern 6) i => d.set (pos i) (encodeChar s.cfg (s.buf.read (addr i)))) s.disp
      trace := s.trace ++ ps.flatMap fun i =>
        [.bufRead (addr i) (s.buf.read (addr i)), putEvent (pos i) (encodeChar s.cfg (s.buf.read (addr i)))] }
  | [], s, _ => by simp; rfl
  | p :: ps, s, h => by
    rw [List.foldlM_cons, showChar_answered _ _ s ps.length h]
    refine (showChars_answered addr pos ps _
      (busAnswers_after (s := s) (k := 1) rfl (by rw [Nat.add_comm]; exact h))).trans ?_
    simp

/-- The window of `n` characters has `n` of them. -/
theorem window_length (len : Len) : (digits.take (window len)).length = min 6 len.val := by simp [digits, window]

end Sys2Proof.Machine
end

