-- ==== Sys2Proof/Laws/Keypad.lean ====
section
/-! SUPPORT. What one row of a scan does (40_keypad_scanner.md R112). -/

namespace Sys2Proof.Machine

theorem columnAsserted_eq (w : Word) (c : Col) : columnAsserted w c = w.getLsbD (5 + c.val) := by
  simp [columnAsserted, colPol, colBit]

/-- Sampling row `r` copies its four cells to `PREV` and fills them from the sampled word; the other rows keep both
grids' cells. -/
theorem sampleRow_eq (r : Row) (w : Word) (s : State) : sampleRow r w s =
    { s with
      prev := Grid.ofFn fun r' c => if r' = r then s.cur.cell r' c else s.prev.cell r' c
      cur := Grid.ofFn fun r' c => if r' = r then w.getLsbD (5 + c.val) else s.cur.cell r' c } := by
  have prevs : (sampleRow r w s).prev =
      Grid.ofFn fun r' c => if r' = r then s.cur.cell r' c else s.prev.cell r' c := by
    apply Grid.ext_cell
    intro r' c
    simp only [sampleRow, columns, List.foldl, sampleCell, Grid.cell_setCell, Grid.cell_ofFn]
    by_cases h : r' = r
    · subst h; fin_cases c <;> simp
    · simp [Ne.symm h, h]
  have curs : (sampleRow r w s).cur =
      Grid.ofFn fun r' c => if r' = r then w.getLsbD (5 + c.val) else s.cur.cell r' c := by
    apply Grid.ext_cell
    intro r' c
    simp only [sampleRow, columns, List.foldl, sampleCell, Grid.cell_setCell, Grid.cell_ofFn, columnAsserted_eq]
    by_cases h : r' = r
    · subst h; fin_cases c <;> simp
    · simp [Ne.symm h, h]
  rw [← prevs, ← curs]
  rfl

/-- One row of a scan whose three accesses complete. -/
theorem scanRow_answered (s : State) (r : Row) (n : Nat) (h : s.busAnswers (n + 3) = true) : scanRow s r =
    .ok { s with
      bus := s.bus.drop 3
      rowsel := 0#4
      inputs := s.inputs.drop 1
      draws := s.draws + s.freeDraws 1
      trace := s.trace ++ [.rowSel s.cfg.rowPat[r], .inRead (s.upcoming 0), .rowSel 0#4]
      prev := Grid.ofFn fun r' c => if r' = r then s.cur.cell r' c else s.prev.cell r' c
      cur := Grid.ofFn fun r' c => if r' = r then (s.upcoming 0).getLsbD (5 + c.val) else s.cur.cell r' c } := by
  have h1 := (busAccess_answered s (n + 2) h).2
  have h2 := (busAccess_answered _ (n + 1) h1).2
  rw [scanRow_eq, rowWrite_answered _ s (n + 2) h]
  change (inputRead _ >>= _) = _
  rw [inputRead_answered _ (n + 1) (by rw [← h1]; exact busAnswers_congr rfl _)]
  change rowWrite (BitVec.setWidth 32 0#4) _ = _
  rw [rowWrite_answered _ _ n (by rw [← h2, sampleRow_eq]; exact busAnswers_congr rfl _), sampleRow_eq]
  simp [List.drop_drop]
  exact ⟨rfl, rfl, rfl⟩

end Sys2Proof.Machine
end

