-- ==== Sys2Proof/Laws/Memory.lean ====
section
/-! SUPPORT. The buffer: read after write, and the canonical form is kept (R53, log 9). -/

namespace Sys2Proof.Machine

theorem Memory.stored_insert (m : Memory) (k x : Nat) (b : BitVec 8) :
    Memory.stored (Memory.insert m k b) x = if k = x then some b else Memory.stored m x := by
  induction m with
  | nil => rfl
  | cons c m ih =>
    obtain ⟨a, y⟩ := c
    unfold Memory.insert
    split_ifs with h1 h2 h3 h3 h3 <;> simp_all [Memory.stored]
    omega

/-- What is listed after a store was listed before it, or is the byte stored. -/
theorem Memory.mem_insert (m : Memory) (k : Nat) (b : BitVec 8) (x : Host.Cell)
    (h : x ∈ Memory.insert m k b) : x.1 = k ∨ x ∈ m := by
  induction m with
  | nil => simp_all [Memory.insert]
  | cons c m ih =>
    obtain ⟨a, y⟩ := c
    unfold Memory.insert at h
    split_ifs at h with h1 h2
    · rcases List.mem_cons.1 h with rfl | h <;> simp_all
    · rcases List.mem_cons.1 h with rfl | h <;> simp_all
    · rcases List.mem_cons.1 h with rfl | h
      · simp
      · rcases ih h with h | h <;> simp_all

/-- A store at an address of `BUF` keeps the canonical form. -/
theorem Memory.wf_insert (m : Memory) (k : Nat) (b : BitVec 8) (hm : Memory.wf m) (hk : k < 65536) :
    Memory.wf (Memory.insert m k b) := by
  refine ⟨?_, fun x hx => ?_⟩
  · obtain ⟨hp, -⟩ := hm
    induction m with
    | nil => simp [Memory.insert]
    | cons c m ih =>
      obtain ⟨a, y⟩ := c
      obtain ⟨ha, hp⟩ := List.pairwise_cons.1 hp
      unfold Memory.insert
      split_ifs with h1 h2
      · refine List.pairwise_cons.2 ⟨fun x hx => ?_, List.pairwise_cons.2 ⟨ha, hp⟩⟩
        rcases List.mem_cons.1 hx with rfl | hx
        · exact h1
        · exact Nat.lt_trans h1 (ha x hx)
      · exact List.pairwise_cons.2 ⟨ha, hp⟩
      · refine List.pairwise_cons.2 ⟨fun x hx => ?_, ih hp⟩
        rcases Memory.mem_insert m k b x hx with h | h
        · simp only [h]; omega
        · exact ha x h
  · rcases Memory.mem_insert m k b x hx with h | h
    · omega
    · exact hm.2 x h

end Sys2Proof.Machine
end

