-- ==== Sys2Proof/Laws/PerInstr.lean ====
section
/-! SUPPORT. One law per operation, as syntax: its command word lies in the row of the mask and match table
(30_encoding.md R90) that bears its mnemonic. -/

namespace Sys2Proof.Laws.TableRow

/-- The encoder's word for `i` is covered by `i`'s row of R90. -/
def Statement (i : Instr) : Prop :=
  ∃ row ∈ commandTable, row.mnemonic = i.mnemonic ∧ row.covers (encode i) = true

theorem scan : Statement .scan := ⟨_, .head _, rfl, rfl⟩

theorem isPressed (row : Row) (col : Col) : Statement (.isPressed row col) :=
  ⟨⟨.isPressed, 0x20000000#32, 0xFFFFFFF0#32⟩, by decide, rfl, beq_iff_eq.2 (wordK_masked 0x2#4 row col)⟩

theorem justPressed (row : Row) (col : Col) : Statement (.justPressed row col) :=
  ⟨⟨.justPressed, 0x30000000#32, 0xFFFFFFF0#32⟩, by decide, rfl, beq_iff_eq.2 (wordK_masked 0x3#4 row col)⟩

theorem justReleased (row : Row) (col : Col) : Statement (.justReleased row col) :=
  ⟨⟨.justReleased, 0x40000000#32, 0xFFFFFFF0#32⟩, by decide, rfl, beq_iff_eq.2 (wordK_masked 0x4#4 row col)⟩

theorem encode (ch : CharCode) : Statement (.encode ch) :=
  ⟨⟨.encode, 0x50000000#32, 0xFFFFFF00#32⟩, by decide, rfl, beq_iff_eq.2 (wordC_masked 0x5#4 ch)⟩

theorem writeAt (ch : CharCode) (pos : Pos) : Statement (.writeAt ch pos) :=
  ⟨⟨.writeAt, 0x60000000#32, 0xFFFFF800#32⟩, by decide, rfl, beq_iff_eq.2 (wordP_masked 0x6#4 pos ch)⟩

theorem clearAll : Statement .clearAll :=
  ⟨⟨.clearAll, 0x70000000#32, 0xFFFFFFFF#32⟩, by decide, rfl, by decide⟩

theorem renderTrailing (base : BufAddr) (len : Len) : Statement (.renderTrailing base len) :=
  ⟨⟨.renderTrailing, 0x80000000#32, 0xF0000000#32⟩, by decide, rfl, beq_iff_eq.2 (wordB_masked 0x8#4 len base)⟩

theorem renderResult (base : BufAddr) (len : Len) : Statement (.renderResult base len) :=
  ⟨⟨.renderResult, 0x90000000#32, 0xF0000000#32⟩, by decide, rfl, beq_iff_eq.2 (wordB_masked 0x9#4 len base)⟩

theorem sample : Statement .sample :=
  ⟨⟨.sample, 0xA0000000#32, 0xFFFFFFFF#32⟩, by decide, rfl, by decide⟩

end Sys2Proof.Laws.TableRow
end

