-- ==== Sys2Proof/Laws/Scan.lean ====
section
/-! SUPPORT. What the four rows of a scan do together (40_keypad_scanner.md R112): exactly, when the twelve accesses
complete; and how far it comes when one never does (R118). -/

namespace Sys2Proof.Machine

/-- The twelve events, written out. -/
theorem scanTrace_eq (s : State) : (scanTrace s.cfg fun r => s.upcoming r.val) = [
    .rowSel s.cfg.rowPat[0], .inRead (s.upcoming 0), .rowSel 0b0000#4,
    .rowSel s.cfg.rowPat[1], .inRead (s.upcoming 1), .rowSel 0b0000#4,
    .rowSel s.cfg.rowPat[2], .inRead (s.upcoming 2), .rowSel 0b0000#4,
    .rowSel s.cfg.rowPat[3], .inRead (s.upcoming 3), .rowSel 0b0000#4] := by
  simp [scanTrace, rows]

/-- `t` is `s` after the first `k` accesses of a scan; `bus` says what becomes of the accesses after those. -/
structure Scanned (s t : State) (k : Nat) (bus : List Bool) : Prop where
  responses : t.responses = s.responses
  hung : t.hung = s.hung
  fault : t.fault = s.fault
  disp : t.disp = s.disp
  cfg : t.cfg = s.cfg
  bus : t.bus = bus
  trace : t.trace = s.trace ++ (scanTrace s.cfg fun r => s.upcoming r.val).take k
  inputs : t.inputs = s.inputs.drop ((k + 1) / 3)
  draws : t.draws = s.draws + s.freeDraws ((k + 1) / 3)
  prev : ∀ r c, t.prev.cell r c = (if 3 * r.val + 2 ≤ k then s.cur.cell r c else s.prev.cell r c)
  cur : ∀ (r : Row) (c : Col), t.cur.cell r c =
    (if 3 * r.val + 2 ≤ k then (s.upcoming r.val).getLsbD (5 + c.val) else s.cur.cell r c)

section
variable {s t : State} {r : Row}

theorem Scanned.upcoming {bus : List Bool} (h : Scanned s t (3 * r.val) bus) : t.upcoming 0 = s.upcoming r.val := by
  rw [upcoming_after (s := s) (t := t) (k := (3 * r.val + 1) / 3) h.inputs h.draws 0]
  congr 1
  omega

theorem Scanned.freeDraws {bus : List Bool} (h : Scanned s t (3 * r.val) bus) :
    t.draws + t.freeDraws 1 = s.draws + s.freeDraws ((3 * r.val + 1) / 3 + 1) := by
  rw [← freeDraws_after (s := s) (t := t) h.inputs 1, h.draws, Nat.add_assoc]

theorem scanTrace_length (s : State) : (scanTrace s.cfg fun r => s.upcoming r.val).length = 12 := by
  rw [scanTrace_eq]; rfl

/-- The first `3 * r + j` events, one by one through row `r`. -/
theorem scanTrace_take (s : State) (r : Row) :
    let events := scanTrace s.cfg fun r => s.upcoming r.val
    events.take (3 * r.val + 1) = events.take (3 * r.val) ++ [.rowSel s.cfg.rowPat[r]] ∧
    events.take (3 * r.val + 2) =
      events.take (3 * r.val) ++ [.rowSel s.cfg.rowPat[r], .inRead (s.upcoming r.val)] ∧
    events.take (3 * r.val + 3) =
      events.take (3 * r.val) ++ [.rowSel s.cfg.rowPat[r], .inRead (s.upcoming r.val), .rowSel 0#4] := by
  simp only [scanTrace_eq]
  fin_cases r <;> exact ⟨rfl, rfl, rfl⟩

/-- The same row, three accesses on or fewer, for the rows that are done. -/
theorem row_done (r r' : Row) (j : Nat) (hj : j < 2) : (3 * r'.val + 2 ≤ 3 * r.val + j) ↔ 3 * r'.val + 2 ≤ 3 * r.val := by
  omega

/-- A row whose access number `j` never completes. -/
theorem scanRow_hang {j : Nat} (hj : j < 3) {rest : List Bool}
    (h : Scanned s t (3 * r.val) (List.replicate j true ++ false :: rest)) :
    ∃ u, scanRow t r = .error (.hang u) ∧ Scanned s u (3 * r.val + j) rest := by
  have hb := h.bus
  have take := scanTrace_take s r
  interval_cases j
  · refine ⟨_, by rw [scanRow_eq, rowWrite_hang hb]; rfl, ?_⟩
    exact ⟨h.responses, h.hung, h.fault, h.disp, h.cfg, rfl, h.trace, h.inputs, h.draws, h.prev, h.cur⟩
  · have select := rowWrite_answered t.cfg.rowPat[r] t 0 (by simp [State.busAnswers, hb])
    have read := inputRead_hang (s := { t with
      bus := t.bus.drop 1, rowsel := t.cfg.rowPat[r], trace := t.trace ++ [.rowSel t.cfg.rowPat[r]] })
      (rest := rest) (by simp [hb])
    refine ⟨_, by rw [scanRow_eq, select, Stop.ok_bind, read, Stop.error_bind], ?_⟩
    refine ⟨h.responses, h.hung, h.fault, h.disp, h.cfg, rfl, ?_, ?_, ?_, ?_, ?_⟩
    · simp only [h.trace, h.cfg, take.1, List.append_assoc]
    · rw [show (3 * r.val + 1 + 1) / 3 = (3 * r.val + 1) / 3 by omega]; exact h.inputs
    · rw [show (3 * r.val + 1 + 1) / 3 = (3 * r.val + 1) / 3 by omega]; exact h.draws
    · intro r' c; simp only [h.prev, row_done r r' 1 (by omega)]
    · intro r' c; simp only [h.cur, row_done r r' 1 (by omega)]
  · have select := rowWrite_answered t.cfg.rowPat[r] t 1 (by simp [State.busAnswers, hb])
    have read := inputRead_answered { t with
      bus := t.bus.drop 1, rowsel := t.cfg.rowPat[r], trace := t.trace ++ [.rowSel t.cfg.rowPat[r]] } 0
      (by simp [State.busAnswers, hb])
    refine ⟨_, by
      rw [scanRow_eq, select, Stop.ok_bind, read, Stop.ok_bind]
      simp only [hb]
      rw [sampleRow_eq, rowWrite_hang rfl], ?_⟩
    have word : State.upcoming { t with
      bus := t.bus.drop 1, rowsel := t.cfg.rowPat[r], trace := t.trace ++ [.rowSel t.cfg.rowPat[r]] } 0 =
        s.upcoming r.val := h.upcoming
    refine ⟨h.responses, h.hung, h.fault, h.disp, h.cfg, rfl, ?_, ?_, ?_, ?_, ?_⟩
    · simpa [h.trace, h.cfg, take.2.1, hb] using word
    · simp only [h.inputs, List.drop_drop]; congr 1; omega
    · rw [show (3 * r.val + 2 + 1) / 3 = (3 * r.val + 1) / 3 + 1 by omega]; exact h.freeDraws
    · intro r' c
      simp only [Grid.cell_ofFn, h.prev, h.cur]
      by_cases e : r' = r
      · subst e; simp
      · have : r'.val ≠ r.val := fun k => e (Fin.ext k)
        simp only [e, if_false]; congr 1; simp; omega
    · intro r' c
      have word : ∀ bus tr v, State.upcoming { t with bus := bus, rowsel := v, trace := tr } 0 = s.upcoming r.val :=
        fun _ _ _ => h.upcoming
      simp only [Grid.cell_ofFn, h.cur]
      by_cases e : r' = r
      · subst e; simp [word]
      · have : r'.val ≠ r.val := fun k => e (Fin.ext k)
        simp only [e, if_false]; congr 1; simp; omega

/-- A row whose three accesses complete. -/
theorem scanRow_done {rest : List Bool} (h : Scanned s t (3 * r.val) (List.replicate 3 true ++ rest)) :
    ∃ u, scanRow t r = .ok u ∧ Scanned s u (3 * (r.val + 1)) rest := by
  refine ⟨_, scanRow_answered t r 0 (by simp [State.busAnswers, h.bus]), ?_⟩
  refine ⟨h.responses, h.hung, h.fault, h.disp, h.cfg, by simp [h.bus], ?_, ?_, ?_, ?_, ?_⟩
  · simp only [h.trace, h.cfg, h.upcoming, Nat.mul_add, Nat.mul_one, (scanTrace_take s r).2.2, List.append_assoc]
  · simp only [h.inputs, List.drop_drop]; congr 1; omega
  · rw [show (3 * (r.val + 1) + 1) / 3 = (3 * r.val + 1) / 3 + 1 by omega]; exact h.freeDraws
  · intro r' c
    simp only [Grid.cell_ofFn, h.prev, h.cur]
    by_cases e : r' = r
    · subst e; simp; omega
    · have : r'.val ≠ r.val := fun k => e (Fin.ext k)
      simp only [e, if_false]; congr 1; simp; omega
  · intro r' c
    simp only [Grid.cell_ofFn, h.cur, h.upcoming]
    by_cases e : r' = r
    · subst e; simp; omega
    · have : r'.val ≠ r.val := fun k => e (Fin.ext k)
      simp only [e, if_false]; congr 1; simp; omega

end

/-- A scan whose access number `k` never completes: the state is `Scanned` up to there (R118). -/
theorem scan_hang (s : State) {k : Nat} {rest : List Bool} (hk : k < 12)
    (hb : s.bus = List.replicate k true ++ false :: rest) :
    ∃ u, rows.foldlM scanRow s = .error (.hang u) ∧ Scanned s u k rest := by
  have at0 : Scanned s s (3 * (0 : Row).val) (List.replicate k true ++ false :: rest) :=
    ⟨rfl, rfl, rfl, rfl, rfl, hb, by simp, by simp, by simp [State.freeDraws], by simp, by simp⟩
  have three : ∀ n, List.replicate (n + 3) true ++ false :: rest =
      List.replicate 3 true ++ (List.replicate n true ++ false :: rest) := by
    intro n; rw [Nat.add_comm, List.replicate_add, List.append_assoc]
  simp only [rows, List.foldlM_cons, List.foldlM_nil]
  by_cases h : k < 3
  · obtain ⟨u, hu, p⟩ := scanRow_hang h at0
    exact ⟨u, by rw [hu]; rfl, by simpa using p⟩
  obtain ⟨k, rfl⟩ := Nat.exists_eq_add_of_le' (Nat.le_of_not_lt h)
  rw [three] at at0
  obtain ⟨s1, h1, at1⟩ := scanRow_done at0
  rw [h1, Stop.ok_bind]
  by_cases h : k < 3
  · obtain ⟨u, hu, p⟩ := scanRow_hang (r := 1) h at1
    exact ⟨u, by rw [hu]; rfl, by rw [Nat.add_comm]; exact p⟩
  obtain ⟨k, rfl⟩ := Nat.exists_eq_add_of_le' (Nat.le_of_not_lt h)
  rw [three] at at1
  obtain ⟨s2, h2, at2⟩ := scanRow_done (r := 1) at1
  rw [h2, Stop.ok_bind]
  by_cases h : k < 3
  · obtain ⟨u, hu, p⟩ := scanRow_hang (r := 2) h at2
    exact ⟨u, by rw [hu]; rfl, by rw [show k + 3 + 3 = 6 + k by omega]; exact p⟩
  obtain ⟨k, rfl⟩ := Nat.exists_eq_add_of_le' (Nat.le_of_not_lt h)
  rw [three] at at2
  obtain ⟨s3, h3, at3⟩ := scanRow_done (r := 2) at2
  rw [h3, Stop.ok_bind]
  obtain ⟨u, hu, p⟩ := scanRow_hang (r := 3) (by omega : k < 3) at3
  exact ⟨u, by rw [hu]; rfl, by rw [show k + 3 + 3 + 3 = 9 + k by omega]; exact p⟩

/-- The state after a row whose accesses complete. -/
def rowDone (r : Row) (s : State) : State := { s with
  bus := s.bus.drop 3
  rowsel := 0#4
  inputs := s.inputs.drop 1
  draws := s.draws + s.freeDraws 1
  trace := s.trace ++ [.rowSel s.cfg.rowPat[r], .inRead (s.upcoming 0), .rowSel 0#4]
  prev := Grid.ofFn fun r' c => if r' = r then s.cur.cell r' c else s.prev.cell r' c
  cur := Grid.ofFn fun r' c => if r' = r then (s.upcoming 0).getLsbD (5 + c.val) else s.cur.cell r' c }

theorem rowDone_prev (r : Row) (s : State) : (rowDone r s).prev =
    Grid.ofFn fun r' c => if r' = r then s.cur.cell r' c else s.prev.cell r' c := rfl

theorem rowDone_cur (r : Row) (s : State) : (rowDone r s).cur =
    Grid.ofFn fun r' c => if r' = r then (s.upcoming 0).getLsbD (5 + c.val) else s.cur.cell r' c := rfl

theorem rowDone_trace (r : Row) (s : State) : (rowDone r s).trace =
    s.trace ++ [.rowSel s.cfg.rowPat[r], .inRead (s.upcoming 0), .rowSel 0#4] := rfl

theorem rowDone_cfg (r : Row) (s : State) : (rowDone r s).cfg = s.cfg := rfl

theorem rowDone_inputs (r : Row) (s : State) : (rowDone r s).inputs = s.inputs.drop 1 := rfl

theorem rowDone_draws (r : Row) (s : State) : (rowDone r s).draws = s.draws + s.freeDraws 1 := rfl

theorem rowDone_bus (r : Row) (s : State) : (rowDone r s).bus = s.bus.drop 3 := rfl

theorem rowDone_upcoming (r : Row) (s : State) (k : Nat) : (rowDone r s).upcoming k = s.upcoming (1 + k) :=
  upcoming_after (s := s) (t := rowDone r s) (k := 1) rfl rfl k

theorem rowDone_freeDraws (r : Row) (s : State) (k : Nat) :
    s.freeDraws 1 + (rowDone r s).freeDraws k = s.freeDraws (1 + k) :=
  freeDraws_after (s := s) (t := rowDone r s) (k := 1) rfl k

theorem rowDone_busAnswers (r : Row) (s : State) (n : Nat) (h : s.busAnswers (3 + n) = true) :
    (rowDone r s).busAnswers n = true :=
  busAnswers_after (s := s) (t := rowDone r s) (k := 3) rfl h

theorem scanRow_rowDone (r : Row) (s : State) (n : Nat) (h : s.busAnswers (3 + n) = true) :
    scanRow s r = .ok (rowDone r s) := scanRow_answered s r n (by rw [Nat.add_comm]; exact h)

/-- A scan whose twelve accesses complete: every row is sampled, once, in turn (R112). -/
theorem scan_answered (s : State) (h : s.busAnswers 12 = true) : rows.foldlM scanRow s = .ok { s with
    prev := s.cur
    cur := Grid.ofFn fun r c => (s.upcoming r.val).getLsbD (5 + c.val)
    rowsel := 0#4
    inputs := s.inputs.drop 4
    draws := s.draws + s.freeDraws 4
    bus := s.bus.drop 12
    trace := s.trace ++ scanTrace s.cfg fun r => s.upcoming r.val } := by
  have b1 := rowDone_busAnswers 0 s 9 h
  have b2 := rowDone_busAnswers 1 _ 6 b1
  have b3 := rowDone_busAnswers 2 _ 3 b2
  simp only [rows, List.foldlM_cons, List.foldlM_nil]
  rw [scanRow_rowDone 0 s 9 h, Stop.ok_bind, scanRow_rowDone 1 _ 6 b1, Stop.ok_bind, scanRow_rowDone 2 _ 3 b2,
    Stop.ok_bind, scanRow_rowDone 3 _ 0 b3, Stop.ok_bind]
  have all : ∀ t, t = rowDone 3 (rowDone 2 (rowDone 1 (rowDone 0 s))) → t =
      { s with prev := t.prev, cur := t.cur, rowsel := 0#4, inputs := t.inputs, draws := t.draws, bus := t.bus,
               trace := t.trace } := fun _ e => e ▸ rfl
  generalize e : rowDone 3 (rowDone 2 (rowDone 1 (rowDone 0 s))) = t
  have prevs : t.prev = s.cur := by
    subst e; apply Grid.ext_cell; intro r c
    fin_cases r <;> simp [rowDone_prev, rowDone_cur]
  have curs : t.cur = Grid.ofFn fun r c => (s.upcoming r.val).getLsbD (5 + c.val) := by
    subst e; apply Grid.ext_cell; intro r c
    fin_cases r <;> simp [rowDone_cur, rowDone_upcoming]
  have draws : t.draws = s.draws + s.freeDraws 4 := by
    subst e
    rw [← rowDone_freeDraws 0 s 3, ← rowDone_freeDraws 1 _ 2, ← rowDone_freeDraws 2 _ 1]
    simp only [rowDone_draws, Nat.add_assoc]
  have traces : t.trace = s.trace ++ scanTrace s.cfg fun r => s.upcoming r.val := by
    subst e; simp [scanTrace_eq, rowDone_trace, rowDone_cfg, rowDone_upcoming]
  have inputs : t.inputs = s.inputs.drop 4 := by subst e; simp [rowDone_inputs]
  have bus : t.bus = s.bus.drop 12 := by subst e; simp [rowDone_bus]
  rw [all t e.symm, prevs, curs, draws, traces, inputs, bus]
  rfl

end Sys2Proof.Machine
end

