-- ==== Sys2Proof/Laws/Step.lean ====
section
/-! SUPPORT. Everything a step can do, once. -/

namespace Sys2Proof.Machine

/-- A command that finds the block running nothing is accepted (R81). -/
theorem step_command {s : State} {w : Word} {rest : List Stimulus} (hp : s.port = .command w :: rest)
    (hh : s.hung = false) : step s = acceptCommand exec w { s with port := rest } := by
  simp [step, nextStimulus, hp, hh]

/-- What the part of a command that has run leaves as it was, and the events it adds. -/
structure Accepted (s t : State) : Prop where
  cfg : t.cfg = s.cfg
  buf : t.buf = s.buf
  port : t.port = s.port
  events : ∃ ev, t.trace = s.trace ++ ev ∧ ∀ e ∈ ev, e.Legal s.cfg

/-- What the block does with a command word (R175). -/
theorem acceptCommand_cases {w : Word} {s t : State} (h : acceptCommand exec w s = .next t) :
    (s.fault = true ∧ t = { s with responses := s.responses ++ [0x80030000#32] }) ∨
    (s.fault = false ∧ (∃ e, decode w = .error e) ∧ t = { s with responses := s.responses ++ [0x80020000#32] }) ∨
    (s.fault = false ∧ ∃ i, decode w = .ok i ∧ exec i s = .next t) := by
  unfold acceptCommand at h
  split at h
  · next hf => injection h with h; exact .inl ⟨hf, h ▸ raise_faulted _⟩
  · next hf =>
    have hf : s.fault = false := by simpa using hf
    split at h
    · next d => injection h with h; exact .inr (.inl ⟨hf, ⟨_, d⟩, h ▸ raise_reserved _ _⟩)
    · next d => exact .inr (.inr ⟨hf, _, d, h⟩)

theorem Accepted.refl (s : State) : Accepted s s := ⟨rfl, rfl, rfl, [], by simp⟩

/-- Where a command stands after any number of its events: it has not answered yet (R11). -/
theorem midCommand_accepted (w : Word) (n : Nat) (s : State) :
    Accepted s (midCommand w n s) ∧ (midCommand w n s).responses = s.responses := by
  unfold midCommand
  split
  · exact ⟨Accepted.refl s, rfl⟩
  · split
    · exact ⟨Accepted.refl s, rfl⟩
    · next i _ =>
      obtain ⟨bus, f⟩ := afterActions_follows n i s
      obtain ⟨ev, e, -, -, k⟩ := f.events
      exact ⟨⟨f.cfg, f.buf, f.port, ev, e, k⟩, f.responses⟩

/-- A Reset: the reset event, between operations in the state it finds, during one in the state the operation has
reached, with no response added. -/
theorem acceptReset_cases (during : Option (Word × Nat)) (s : State) :
    ∃ u, acceptReset during s = u.resetEvent ∧ Accepted s u ∧ u.responses = s.responses ∧ (during = none → u = s) := by
  match during with
  | none => exact ⟨s, rfl, Accepted.refl s, rfl, fun _ => rfl⟩
  | some (w, n) =>
    by_cases hh : s.hung = true
    · exact ⟨s, if_pos hh, Accepted.refl s, rfl, nofun⟩
    · exact ⟨_, if_neg hh, (midCommand_accepted w n s).1, (midCommand_accepted w n s).2, nofun⟩

/-- The inversion of `step`: nothing happens, a Reset, a store of the host's, or a command, refused or run (R175). -/
theorem step_cases {s t : State} (h : step s = .next t) :
    (t = s ∧ (s.port = [] ∨ (s.hung = true ∧ ∀ during rest, s.port ≠ .reset during :: rest))) ∨
    (∃ during rest u, s.port = .reset during :: rest ∧ Accepted { s with port := rest } u ∧
      u.responses = s.responses ∧ (during = none → u = { s with port := rest }) ∧ t = u.resetEvent) ∨
    (∃ a ch rest, s.port = .store a ch :: rest ∧ s.hung = false ∧
      t = ({ s with port := rest } : State).storeByte a ch) ∨
    (∃ w rest, s.port = .command w :: rest ∧ s.hung = false ∧
      ((s.fault = true ∧ t = { s with port := rest, responses := s.responses ++ [0x80030000#32] }) ∨
       (s.fault = false ∧ (∃ e, decode w = .error e) ∧
         t = { s with port := rest, responses := s.responses ++ [0x80020000#32] }) ∨
       (s.fault = false ∧ ∃ i, decode w = .ok i ∧ exec i { s with port := rest } = .next t))) := by
  unfold step nextStimulus at h
  split at h
  · injection h with h; exact .inl ⟨h.symm, .inl ‹_›⟩
  · next during rest e =>
    obtain ⟨u, hu, k, r, n⟩ := acceptReset_cases during { s with port := rest }
    rw [hu] at h
    injection h with h
    exact .inr (.inl ⟨during, rest, u, e, k, r, n, h.symm⟩)
  · next a ch rest e =>
    by_cases hh : s.hung = true
    · rw [if_pos hh] at h; injection h with h; exact .inl ⟨h.symm, .inr ⟨hh, by simp [e]⟩⟩
    · rw [if_neg hh] at h; injection h with h
      exact .inr (.inr (.inl ⟨a, ch, rest, e, by simpa using hh, h.symm⟩))
  · next w rest e =>
    by_cases hh : s.hung = true
    · rw [if_pos hh] at h; injection h with h; exact .inl ⟨h.symm, .inr ⟨hh, by simp [e]⟩⟩
    · rw [if_neg hh] at h
      exact .inr (.inr (.inr ⟨w, rest, e, by simpa using hh, acceptCommand_cases h⟩))

/-- A run of one more step. -/
theorem run_succ (n : Nat) (s : State) : Host.Core.run Sys2Proof.core (n + 1) s =
    (match step s with
      | .next t => Host.Core.run Sys2Proof.core n t
      | .fault r => .fault r
      | .refused r => .refused r : Host.Outcome State Fault Refusal) := by
  simp only [Host.Core.run]
  have e : Sys2Proof.core.step s = step s := rfl
  rw [e]
  cases step s <;> rfl

end Sys2Proof.Machine
end

