-- ==== Sys2Proof/Tests/Slice0.lean ====
section
/-! SUPPORT. Tests: expected results from 30_encoding.md and from the vectors of 95_test_vectors.md (V1 ... V44), which
that file derives by hand from the rules; and for every statement with hypotheses a witness that meets them. -/

namespace Sys2Proof.Tests

open Sys2Proof Sys2Proof.Machine

/-! ### Small states -/

/-- `CFG_REF` of 95_test_vectors.md section 0, with `TRAILING_BLANK_FILL` as given; its unused bases as the witness. -/
def cfgRef (fill : Bool) : Config := { Config.witness with
  seg := #v[
    0x86#8, 0x39#8, 0x0F#8, 0x76#8, 0x46#8, 0x40#8, 0x80#8, 0x52#8,
    0x3F#8, 0x06#8, 0x5B#8, 0x4F#8, 0x66#8, 0x6D#8, 0x7D#8, 0x07#8, 0x7F#8, 0x6F#8,
    0x23#8, 0x58#8, 0x38#8, 0x6D#8, 0x78#8]
  trailingBlankFill := fill }

/-- Row nibbles to a grid, as 95_test_vectors.md writes grids. -/
def grid (a b c d : Nibble) : Grid := Grid.ofFn fun r k => (#v[a, b, c, d])[r].getLsbD k.val

/-- A block after Reset under `CFG_REF`, its display showing six different patterns. -/
def shown (fill : Bool) : State :=
  { State.reset with cfg := cfgRef fill, rowsel := 0#4, disp := #v[1#8, 2#8, 3#8, 4#8, 5#8, 6#8] }

/-- The same, without blank fill. -/
def idle : State := shown false

/-- The same, faulted. -/
def faulted : State := { idle with fault := true }

/-- A block with something at its command port. -/
def given (x : Stimulus) (s : State) : State := { s with port := [x] }

/-- The pins' coming words. -/
def pins (ws : List Word) (s : State) : State := { s with inputs := ws }

/-- Which accesses complete. -/
def bus (bs : List Bool) (s : State) : State := { s with bus := bs }

/-- The two grids. -/
def keys (cur prev : Grid) (s : State) : State := { s with cur := cur, prev := prev }

/-- The buffer. -/
def text (m : Memory) (s : State) : State := { s with buf := m }

/-- What a function of the state gives on the next state. -/
def seen {α : Type} (f : State → α) : Host.Outcome State Fault Refusal → Option α
  | .next s => some (f s)
  | .fault _ => none
  | .refused _ => none

/-! ### Words written out from the spec's encodings (30_encoding.md R82 to R87) -/

/-- Format N, `op` 0001 (V1). -/
theorem test_decode_scan : decode 0b00010000000000000000000000000000#32 = .ok .scan := by decide

/-- Format K, `op` 0010, `row` 10, `col` 11 (V2). -/
theorem test_decode_is_pressed : decode 0b00100000000000000000000000001011#32 = .ok (.isPressed 2 3) := by decide

/-- Format K, `op` 0011, `row` 01, `col` 10. -/
theorem test_decode_just_pressed : decode 0b00110000000000000000000000000110#32 = .ok (.justPressed 1 2) := by decide

/-- Format K, `op` 0100, `row` 11, `col` 11 (V9b). -/
theorem test_decode_just_released : decode 0b01000000000000000000000000001111#32 = .ok (.justReleased 3 3) := by decide

/-- Format C, `op` 0101, `ch` 11111111 (V9c). -/
theorem test_decode_encode : decode 0b01010000000000000000000011111111#32 = .ok (.encode 0xFF#8) := by decide

/-- Format P, `op` 0110, `pos` 100, `ch` 00110111 (V3). -/
theorem test_decode_write_at : decode 0b01100000000000000000010000110111#32 = .ok (.writeAt 0x37#8 4) := by decide

/-- Format N, `op` 0111. -/
theorem test_decode_clear_all : decode 0b01110000000000000000000000000000#32 = .ok .clearAll := by decide

/-- Format B, `op` 1000, `len` 000000000100, `base` 0000000100000000 (V4). -/
theorem test_decode_render_trailing :
    decode 0b10000000000001000000000100000000#32 = .ok (.renderTrailing 0x0100#16 4) := by decide

/-- Format B, `op` 1001, all other bits 1 (V9a). -/
theorem test_decode_render_result :
    decode 0b10011111111111111111111111111111#32 = .ok (.renderResult 0xFFFF#16 4095) := by decide

/-- Format N, `op` 1010. -/
theorem test_decode_sample : decode 0b10100000000000000000000000000000#32 = .ok .sample := by decide

/-- V5 to V8: reserved words, each with its reason. -/
theorem test_decode_reserved :
    decode 0x00000000#32 = .error (.opcode 0x0#4) ∧ decode 0x10000001#32 = .error (.zeroField 0x1#4) ∧
    decode 0x60000837#32 = .error (.zeroField 0x6#4) ∧ decode 0xB0000000#32 = .error (.opcode 0xB#4) ∧
    decode 0xFFFFFFFF#32 = .error (.opcode 0xF#4) := by decide

/-- V9: position 7 decodes. -/
theorem test_table_word : decodeTableWord 32 0x60000737 = some (.writeAt 0x37#8 7) ∧
    decodeTableWord 32 0x60000F37 = none := by decide

/-! ### WellFormed: an ill-formed term for each check -/

/-- The words of V5 to V8 match no row of R90; those of V1 and V9 do. -/
theorem test_ill_formed_words : [0x00000000#32, 0x10000001#32, 0x60000837#32, 0xB0000000#32, 0xFFFFFFFF#32].all
    (fun w => !Word.wellFormed w) = true ∧ Word.wellFormed 0x10000000#32 = true ∧
    Word.wellFormed 0x60000737#32 = true := by decide

/-- Positions 6 and 7 are outside the document's domain, position 5 is inside (R171). -/
theorem test_position_domain : Instr.inDomain (.writeAt 0x35#8 6) = false ∧ Instr.inDomain (.writeAt 0x35#8 7) = false ∧
    Instr.inDomain (.writeAt 0x35#8 5) = true := by decide

/-- A configuration with two equal row lines, with an `OFF_OUT` that is `OFF_IN`, or with overlapping blocks is refused;
`CFG_REF` is not (R7). -/
theorem test_ill_formed_configs :
    Config.wf { cfgRef false with rowPat := #v[1#4, 1#4, 4#4, 8#4] } = false ∧
    Config.wf { cfgRef false with rowPat := #v[3#4, 2#4, 4#4, 8#4] } = false ∧
    Config.wf { cfgRef false with offOut := 0x50 } = false ∧ Config.wf { cfgRef false with offOut := 2 } = false ∧
    Config.wf { cfgRef false with baseDhi := 0x102 } = false ∧ Config.wf { cfgRef false with baseDlo := 0x52 } = false ∧
    Config.wf { cfgRef false with baseDhi := 0x52 } = false ∧ Config.wf (cfgRef false) = true := by decide

/-! ### One operation -/

/-- V10: four draws, keys (1,1) and (3,3). -/
theorem test_scan_fills_rows : seen (fun t => (t.cur, t.prev, t.rowsel, t.responses))
    (exec .scan (pins [0#32, 0x40#32, 0#32, 0x100#32] idle)) =
    some (grid 0#4 2#4 0#4 8#4, grid 0#4 0#4 0#4 0#4, 0#4, [0#32]) := by decide

/-- V10 under `CFG_ALT`: the row lines are `ROW_PAT`'s, not `1 << r`. -/
theorem test_scan_selects_row_pat : seen (fun t => t.trace)
    (exec .scan { pins [0#32, 0x40#32, 0#32, 0x100#32] idle with
      cfg := { cfgRef false with rowPat := #v[4#4, 1#4, 8#4, 2#4] } }) =
    some [.rowSel 4#4, .inRead 0#32, .rowSel 0#4, .rowSel 1#4, .inRead 0x40#32, .rowSel 0#4,
      .rowSel 8#4, .inRead 0#32, .rowSel 0#4, .rowSel 2#4, .inRead 0x100#32, .rowSel 0#4] := by decide

/-- R113, after V11: with (1,1), (1,2) and (3,3) pressed, (1,2) is and its mirror image (2,1) is not. -/
theorem test_is_pressed :
    let s := keys (grid 0#4 6#4 0#4 8#4) (grid 0#4 0#4 0#4 0#4) idle
    seen (fun t => t.responses) (exec (.isPressed 1 2) s) = some [1#32] ∧
    seen (fun t => t.responses) (exec (.isPressed 2 1) s) = some [0#32] := by decide

/-- V11 and V12: a press edge, and none on a key that is held. -/
theorem test_just_pressed :
    seen (fun t => t.responses) (exec (.justPressed 1 1) (keys (grid 0#4 2#4 0#4 8#4) (grid 0#4 0#4 0#4 0#4) idle)) =
      some [1#32] ∧
    seen (fun t => t.responses) (exec (.justPressed 1 1) (keys (grid 0#4 2#4 0#4 8#4) (grid 0#4 2#4 0#4 8#4) idle)) =
      some [0#32] := by decide

/-- V13: a release edge at (1,1), none at (3,3), which is held. -/
theorem test_just_released :
    let s := keys (grid 0#4 0#4 0#4 8#4) (grid 0#4 2#4 0#4 8#4) idle
    seen (fun t => t.responses) (exec (.justReleased 1 1) s) = some [1#32] ∧
    seen (fun t => t.responses) (exec (.justReleased 3 3) s) = some [0#32] := by decide

/-- V35: `'!'`, `'5'`, `'t'`. -/
theorem test_encode_supported :
    seen (fun t => t.responses) (exec (.encode 0x21#8) idle) = some [0x86#32] ∧
    seen (fun t => t.responses) (exec (.encode 0x35#8) idle) = some [0x6D#32] ∧
    seen (fun t => t.responses) (exec (.encode 0x74#8) idle) = some [0x78#32] := by decide

/-- V36: `','` in the gap of the table and `':'` just past `'9'` are blank. -/
theorem test_encode_unsupported :
    seen (fun t => t.responses) (exec (.encode 0x2C#8) idle) = some [0#32] ∧
    seen (fun t => t.responses) (exec (.encode 0x3A#8) idle) = some [0#32] := by decide

/-- V32, positions 3 and 4: the last byte of the first block, the first of the second. -/
theorem test_write_at_routes :
    seen (fun t => (t.disp, t.trace)) (exec (.writeAt 0x38#8 3) idle) =
      some (#v[1#8, 2#8, 3#8, 0x7F#8, 5#8, 6#8], [.dispWrite .lo 3 0x7F#8]) ∧
    seen (fun t => (t.disp, t.trace)) (exec (.writeAt 0x38#8 4) idle) =
      some (#v[1#8, 2#8, 3#8, 4#8, 0x7F#8, 6#8], [.dispWrite .hi 0 0x7F#8]) := by decide

/-- V32, position 6. -/
theorem test_write_at_out_of_range :
    seen (fun t => (t.disp, t.trace, t.fault, t.responses)) (exec (.writeAt 0x38#8 6) idle) =
      some (#v[1#8, 2#8, 3#8, 4#8, 5#8, 6#8], [], true, [0x80010000#32]) := by decide

/-- V34. -/
theorem test_clear_all : seen (fun t => (t.disp, t.trace)) (exec .clearAll idle) =
    some (#v[0#8, 0#8, 0#8, 0#8, 0#8, 0#8], [.dispWrite .lo 0 0#8, .dispWrite .lo 1 0#8, .dispWrite .lo 2 0#8,
      .dispWrite .lo 3 0#8, .dispWrite .hi 0 0#8, .dispWrite .hi 1 0#8]) := by decide

/-- V20 and V21, from a display with no blank digit: `12+3` under both settings of `TRAILING_BLANK_FILL`. -/
theorem test_render_trailing :
    let m : Memory := [(0x100, 0x31#8), (0x101, 0x32#8), (0x102, 0x2B#8), (0x103, 0x33#8)]
    seen (fun t => t.disp) (exec (.renderTrailing 0x100#16 4) (text m (shown false))) =
      some #v[0x4F#8, 0x46#8, 0x5B#8, 0x06#8, 5#8, 6#8] ∧
    seen (fun t => t.disp) (exec (.renderTrailing 0x100#16 4) (text m (shown true))) =
      some #v[0x4F#8, 0x46#8, 0x5B#8, 0x06#8, 0#8, 0#8] := by decide

/-- V27: the addresses wrap at 2^16. -/
theorem test_render_trailing_wraps : seen (fun t => (t.disp, t.trace.head?))
    (exec (.renderTrailing 0xFFFE#16 4)
      (text [(0, 0x39#8), (1, 0x30#8), (0xFFFE, 0x37#8), (0xFFFF, 0x38#8)] idle)) =
    some (#v[0x3F#8, 0x6F#8, 0x7F#8, 0x07#8, 5#8, 6#8], some (.bufRead 1#16 0x30#8)) := by decide

/-- V28: `3.14159`, the first six characters, the first at position 5; and the word views of decision D9. -/
theorem test_render_result : seen (fun t => (t.disp, dloWord t.disp, dhiHalfWord t.disp))
    (exec (.renderResult 0x200#16 7) (text [(0x200, 0x33#8), (0x201, 0x2E#8), (0x202, 0x31#8), (0x203, 0x34#8),
      (0x204, 0x31#8), (0x205, 0x35#8), (0x206, 0x39#8)] idle)) =
    some (#v[0x6D#8, 0x06#8, 0x66#8, 0x06#8, 0x80#8, 0x4F#8], 0x0666066D#32, 0x4F80#16) := by decide

/-- V29: a result shorter than six characters leaves the other digits as they were. -/
theorem test_render_result_short : seen (fun t => t.disp)
    (exec (.renderResult 0x500#16 2) (text [(0x500, 0x34#8), (0x501, 0x32#8)] idle)) =
    some #v[1#8, 2#8, 3#8, 4#8, 0x5B#8, 0x66#8] := by decide

/-- V40a and V39b: bits 15:11, raw; the neighbours of the field are outside it. -/
theorem test_sample :
    seen (fun t => (t.responses, t.trace)) (exec .sample (pins [0x8800#32] idle)) =
      some ([0x11#32], [.inRead 0x8800#32]) ∧
    seen (fun t => t.responses) (exec .sample (pins [0x10400#32] idle)) = some [0#32] := by decide

/-! ### Faults, priority, hang, Reset -/

/-- V41 and V43: `Faulted` before `ReservedCommand` before `PositionRange`. -/
theorem test_priority :
    seen (fun t => (t.fault, t.responses)) (step (given (.command 0#32) faulted)) = some (true, [0x80030000#32]) ∧
    seen (fun t => (t.fault, t.responses)) (step (given (.command 0x60000F37#32) idle)) =
      some (false, [0x80020000#32]) := by decide

/-- R70, R118: a scan whose read of row 0 never completes has selected row 0 and nothing more; the block then waits. -/
theorem test_hang :
    let s := given (.command 0x10000000#32) (bus [true, false] idle)
    seen (fun t => (t.hung, t.responses, t.trace, t.rowsel)) (step s) = some (true, [], [.rowSel 1#4], 1#4) := by decide

/-- R200: a Reset leaves the grids all false and `FAULT` 0, whatever the block was doing. -/
theorem test_reset : seen (fun t => (t.cur, t.prev, t.fault, t.hung, t.responses))
    (step (given (.reset none) { keys (grid 1#4 2#4 4#4 8#4) (grid 8#4 0#4 0#4 0#4) faulted with hung := true })) =
    some (grid 0#4 0#4 0#4 0#4, grid 0#4 0#4 0#4 0#4, false, false, []) := by decide

/-- R200: a Reset in the middle of a scan on a responsive bus, after its fourth event: no response, the four events
stay, the other two rows' are never made, the grids are cleared. -/
theorem test_reset_cuts_scan_off : seen (fun t => (t.cur, t.responses, t.trace, t.inputs))
    (step (given (.reset (some (0x10000000#32, 4))) (pins [0x20#32, 0x40#32] idle))) =
    some (grid 0#4 0#4 0#4 0#4, [], [.rowSel 1#4, .inRead 0x20#32, .rowSel 0#4, .rowSel 2#4], [0x40#32]) := by decide

/-- R200: a Reset between a `DispWrite` of a render and its next `BufRead`, and one after that `BufRead`. -/
theorem test_reset_cuts_render_off :
    let s := text [(0x200, 0x34#8), (0x201, 0x32#8)] idle
    seen (fun t => (t.responses, t.trace)) (step (given (.reset (some (0x90020200#32, 2))) s)) =
      some ([], [.bufRead 0x200#16 0x34#8, .dispWrite .hi 1 0x66#8]) ∧
    seen (fun t => (t.responses, t.trace)) (step (given (.reset (some (0x90020200#32, 3))) s)) =
      some ([], [.bufRead 0x200#16 0x34#8, .dispWrite .hi 1 0x66#8, .bufRead 0x201#16 0x32#8]) := by decide

/-- The very next step runs the word placed. -/
theorem test_placed_word_runs :
    seen (fun t => (t.fault, t.responses)) (step (State.reset.withFetchWord 32 0x60000737)) =
      some (true, [0x80010000#32]) ∧
    seen (fun t => t.responses) (step (State.reset.withFetchWord 32 0x20000000)) = some [0#32] := by decide

/-! ### Witnesses: states and operands that meet the hypotheses of each statement that has any -/

theorem test_premises_EncodeOfDecodeIsTheWord : decode 0x2000000B#32 = .ok (.isPressed 2 3) := by decide

theorem test_premises_ReservedWordsAreExactlyThoseRefused :
    let s := given (.command 0x60000837#32) idle
    s.port = .command 0x60000837#32 :: [] ∧ s.hung = false ∧ s.fault = false ∧
    ∃ e, decode 0x60000837#32 = .error e := ⟨rfl, rfl, rfl, _, rfl⟩

theorem test_premises_StepRunsTheDecodedCommand :
    let s := given (.command 0x60000437#32) idle
    s.port = .command 0x60000437#32 :: [] ∧ s.hung = false ∧ s.fault = false ∧
    decode 0x60000437#32 = .ok (.writeAt 0x37#8 4) := by decide

theorem test_premises_BlockWithoutStimulusIdles : idle.port = [] := rfl

/-- A command refused; and a Reset that clears the fault. -/
theorem test_premises_FaultedBlockRefusesEveryCommand :
    (let s := given (.command 0x10000000#32) faulted
     s.port = .command 0x10000000#32 :: [] ∧ s.hung = false ∧ s.fault = true) ∧
    ∃ t, step (given (.reset none) faulted) = .next t ∧ (given (.reset none) faulted).fault = true ∧ t.fault = false :=
  ⟨⟨rfl, rfl, rfl⟩, _, rfl, rfl, rfl⟩

/-- Positions 5 and 6: the two sides of the bound; then the cleared fault and the refused command. -/
theorem test_premises_FaultIsSetByOutOfRangePositionOnly :
    (∃ t, step (given (.command (encode (.writeAt 0x38#8 5))) idle) = .next t ∧ t.fault = false) ∧
    (∃ t, step (given (.command (encode (.writeAt 0x38#8 6))) idle) = .next t ∧ t.fault = true) ∧
    (∃ t, step (given (.reset none) faulted) = .next t ∧ t.fault = false) ∧
    (given (.command 0#32) faulted).hung = false ∧ (given (.command 0#32) faulted).fault = true :=
  ⟨⟨_, rfl, by decide⟩, ⟨_, rfl, by decide⟩, ⟨_, rfl, rfl⟩, rfl, rfl⟩

/-- Each of the four clauses: faulted, reserved, position 6, a hang. -/
theorem test_premises_AbnormalOutcomesInOrder :
    (given (.command 0#32) faulted).fault = true ∧ (∃ e, decode 0#32 = .error e) ∧
    decode 0x60000638#32 = .ok (.writeAt 0x38#8 6) ∧ 5 < (6 : Pos).val ∧
    seen (fun t => t.hung) (step (given (.command 0x10000000#32) (bus [false] idle))) = some true :=
  ⟨rfl, ⟨_, rfl⟩, by decide, by decide, by decide⟩

theorem test_premises_ResetAbortsAndClears :
    (given (.reset none) { idle with hung := true }).port = .reset none :: [] ∧
    ∃ t, step (given (.reset none) faulted) = .next t ∧ (given (.reset none) faulted).fault = true ∧ t.fault = false :=
  ⟨rfl, _, rfl, rfl, rfl⟩

theorem test_premises_ResetLeavesTheOutsideAlone :
    (given (.reset none) faulted).port = .reset none :: [] ∧ ∃ t, step (given (.reset none) faulted) = .next t := ⟨rfl, _, rfl⟩

/-- One operation that ends, one that waits, and one that makes no event. -/
theorem test_premises_ActionsMakeUpTheOperation :
    idle.fault = false ∧ Instr.inDomain (.writeAt 0x38#8 5) = true ∧ (∃ t, exec (.writeAt 0x38#8 5) idle = .next t) ∧
    Instr.inDomain .scan = true ∧ (∃ t, exec .scan (bus [true, false] idle) = .next t) ∧
    Instr.inDomain (.encode 0x38#8) = true ∧ ∃ t, exec (.encode 0x38#8) idle = .next t :=
  ⟨rfl, rfl, ⟨_, rfl⟩, rfl, ⟨_, rfl⟩, rfl, _, rfl⟩

/-- A clear of six events, and the same clear cut off before its first event, after its last, and past that; and one
that waits for its third access. -/
theorem test_premises_ResetCutsAnOperationOff :
    idle.hung = false ∧ (∃ u, step { idle with port := .command 0x70000000#32 :: [] } = .next u ∧ u.trace.length = 6) ∧
    (∃ t, step { idle with port := .reset (some (0x70000000#32, 0)) :: [] } = .next t ∧ t.trace = []) ∧
    (∃ t, step { idle with port := .reset (some (0x70000000#32, 6)) :: [] } = .next t ∧ t.trace.length = 6) ∧
    (∃ t, step { idle with port := .reset (some (0x70000000#32, 7)) :: [] } = .next t ∧ t.trace.length = 6) ∧
    (let s := bus [true, true, false] idle
     (∃ u, step { s with port := .command 0x70000000#32 :: [] } = .next u ∧ u.trace.length = 2) ∧
     (∃ t, step { s with port := .reset (some (0x70000000#32, 2)) :: [] } = .next t ∧ t.bus = [false]) ∧
     ∃ t, step { s with port := .reset (some (0x70000000#32, 3)) :: [] } = .next t ∧ t.bus = []) :=
  ⟨rfl, ⟨_, rfl, by decide⟩, ⟨_, rfl, by decide⟩, ⟨_, rfl, by decide⟩, ⟨_, rfl, by decide⟩,
    ⟨_, rfl, by decide⟩, ⟨_, rfl, by decide⟩, _, rfl, by decide⟩

theorem test_premises_HungBlockWaitsForReset :
    let s := given (.command 0x10000000#32) { idle with hung := true }
    s.hung = true ∧ ∀ during rest, s.port ≠ .reset during :: rest := ⟨rfl, by intro during rest h; cases h⟩

/-- Both alternatives: a response, and a hang. -/
theorem test_premises_OneResponseForEachCommand :
    (let s := given (.command 0x70000000#32) idle
     s.hung = false ∧ seen (fun t => (t.hung, t.responses)) (step s) = some (false, [0#32])) ∧
    (let s := given (.command 0x70000000#32) (bus [true, false] idle)
     s.hung = false ∧ seen (fun t => (t.hung, t.responses)) (step s) = some (true, [])) := by decide

theorem test_premises_EveryOperationEndsOnResponsiveBus :
    idle.BusResponsive ∧ (bus [true, true] idle).BusResponsive ∧ idle.hung = false := ⟨rfl, rfl, rfl⟩

theorem test_premises_TablesAreImmutableAndBufferIsTheHosts :
    let s := given (.command 0x10000000#32) idle
    (∃ t, step s = .next t) ∧ ∀ a ch rest, s.port ≠ .store a ch :: rest :=
  ⟨⟨_, rfl⟩, by intro a ch rest h; cases h⟩

theorem test_premises_HostStoreIsReadBack :
    let s := given (.store 0xFFFF#16 0x31#8) idle
    s.port = .store 0xFFFF#16 0x31#8 :: [] ∧ s.hung = false ∧ (0#16 : BufAddr) ≠ 0xFFFF#16 := by decide

/-- A bus that answers all twelve accesses and no more; a faulted block; a bus that fails at the twelfth. -/
theorem test_premises_ScanSamplesEveryRow :
    (bus (List.replicate 12 true ++ [false]) idle).busAnswers 12 = true ∧ idle.fault = false ∧ faulted.fault = true ∧
    (bus (List.replicate 11 true ++ [false]) idle).busAnswers 12 = false := by decide

/-- The first access and the last. -/
theorem test_premises_HungScanLeavesRowsSampledSoFar :
    idle.fault = false ∧ (bus [false] idle).bus = List.replicate 0 true ++ false :: [] ∧
    (bus (List.replicate 11 true ++ [false]) idle).bus = List.replicate 11 true ++ false :: [] := by decide

/-- A block that runs and one that is faulted, for `IS_PRESSED`, `JUST_PRESSED`, `JUST_RELEASED` and the table of R116. -/
theorem test_premises_queries : idle.fault = false ∧ faulted.fault = true := ⟨rfl, rfl⟩

theorem test_premises_ScanIsTheOnlyMutatorOfTheGrids :
    idle.fault = false ∧ idle.busAnswers 12 = true ∧ (∃ t, exec .scan idle = .next t) ∧
    (Instr.clearAll ≠ .scan) ∧ ∃ t, exec .clearAll idle = .next t :=
  ⟨rfl, rfl, ⟨_, rfl⟩, by decide, _, rfl⟩

/-- A clear between two scans. -/
theorem test_premises_PreviousAfterNextScanIsCurrentAfterThis :
    let s := { idle with port := [.command 0x70000000#32, .command (encode .scan)] }
    (∀ x ∈ s.port.take 1, (∀ during, x ≠ .reset during) ∧ x ≠ .command (encode .scan)) ∧
    ∃ t, Host.Core.run Sys2Proof.core 1 s = .next t ∧ t.port = .command (encode .scan) :: [] ∧ t.hung = false ∧
      t.fault = false ∧ t.busAnswers 12 = true ∧ ∃ u, step t = .next u :=
  ⟨by intro x hx; simp at hx; subst hx; exact ⟨nofun, by decide⟩, _, rfl, by decide, by decide, by decide, by decide,
    _, rfl⟩

/-- The part of the trace up to the first selection, before the read; and up to the first release, before the next
selection. -/
theorem test_premises_NeverTwoRowLinesAsserted :
    idle.cfg.wf = true ∧ ∃ t, exec .scan (pins [0#32, 0#32, 0#32, 0#32] idle) = .next t ∧
      (∃ todo, t.trace = idle.trace ++ [.rowSel 1#4] ++ .inRead 0#32 :: todo) ∧
      ∃ todo, t.trace = idle.trace ++ [.rowSel 1#4, .inRead 0#32, .rowSel 0#4] ++ .rowSel 2#4 :: todo :=
  ⟨by decide, _, rfl, ⟨_, rfl⟩, _, rfl⟩

/-- Two lists of draws that agree in bits 8:5 alone. -/
theorem test_premises_ScanIgnoresBitsOutsideColumnField :
    (∀ r : Row, (pins (List.replicate 4 0xFFFFFE1F#32) idle).upcoming r.val &&& 0x000001E0#32 =
      (pins (List.replicate 4 0#32) idle).upcoming r.val &&& 0x000001E0#32) ∧
    (∃ t, exec .scan (pins (List.replicate 4 0xFFFFFE1F#32) idle) = .next t) ∧
    ∃ u, exec .scan (pins (List.replicate 4 0#32) idle) = .next u := ⟨by decide, ⟨_, rfl⟩, _, rfl⟩

theorem test_premises_NoRowSelectedBetweenScans :
    idle.fault = false ∧ idle.busAnswers 12 = true ∧ (∃ t, exec .scan idle = .next t) ∧
    (let s := given (.command 0x70000000#32) idle
     s.rowsel = 0b0000#4 ∧ (∀ during rest, s.port ≠ .reset during :: rest) ∧ ∃ t, step s = .next t ∧ t.hung = false) :=
  ⟨rfl, rfl, ⟨_, rfl⟩, rfl, (by intro during rest h; cases h), _, rfl, by decide⟩

/-- Keys held down that do not change, one in each row; every read of the scan is one of the four, each while its row's
line is asserted. -/
theorem test_premises_IdealKeypadIsReportedByScan :
    ∃ (K : Nat → Grid) (t : State),
      let s := pins [0x20#32, 0x40#32, 0x80#32, 0x100#32] idle
      s.fault = false ∧ s.busAnswers 12 = true ∧ exec .scan s = .next t ∧ IdealKeypad K s t ∧ KeysStable K := by
  refine ⟨fun _ => grid 1#4 2#4 4#4 8#4, _, rfl, rfl, rfl, ?_, fun _ => rfl⟩
  let events : List Event := [
    .rowSel 1#4, .inRead 0x20#32, .rowSel 0#4, .rowSel 2#4, .inRead 0x40#32, .rowSel 0#4,
    .rowSel 4#4, .inRead 0x80#32, .rowSel 0#4, .rowSel 8#4, .inRead 0x100#32, .rowSel 0#4]
  have each : ∀ (n : Fin 12) (r : Row) (c : Col), replayRowsel 0#4 (events.take n) = idle.cfg.rowPat[r] →
      (match events[n] with | .inRead w => w.getLsbD (5 + c.val) | _ => (grid 1#4 2#4 4#4 8#4).cell r c) =
        (grid 1#4 2#4 4#4 8#4).cell r c := by decide
  intro done rest w r h
  have e : events = done ++ .inRead w :: rest := h
  have lt : done.length < 12 := by
    have := congrArg List.length e
    simp [events] at this; omega
  have here : events[done.length]'lt = .inRead w := by simp [e]
  have before : events.take done.length = done := by simp [e]
  intro sel c
  have := each ⟨done.length, lt⟩ r c
  simp only [Fin.getElem_fin, here, before] at this
  exact this sel

/-- Every operation answers a next state, which is all that the frame and trace statements ask for; here with a bus
that fails and a block that is faulted. -/
theorem test_premises_frames (i : Instr) :
    (∃ t, exec i idle = .next t) ∧ (∃ t, exec i (bus [false] idle) = .next t) ∧ ∃ t, exec i faulted = .next t := by
  cases i <;> exact ⟨⟨_, rfl⟩, ⟨_, rfl⟩, _, rfl⟩

/-- The first and the last code of the table are in it, the codes beside its gap are not; a block that runs, one that
is faulted. -/
theorem test_premises_EncodeAnswersTheTable :
    0x20#8 ∉ alphabet ∧ 0x2C#8 ∉ alphabet ∧ 0x3A#8 ∉ alphabet ∧ 0x75#8 ∉ alphabet ∧ idle.fault = false ∧
    faulted.fault = true := by decide

theorem test_premises_PositionsAreRoutedToTheirHalf : (bus [true, false] idle).busAnswers 1 = true := rfl

/-- Position 5, position 6, and a faulted block. -/
theorem test_premises_WriteAtWritesOneLatchOrFaults :
    (5 : Pos).val < 6 ∧ 5 < (6 : Pos).val ∧ idle.fault = false ∧ (bus [true, false] idle).busAnswers 1 = true ∧
    faulted.fault = true := by decide

theorem test_premises_ClearAllBlanksEveryPositionInOrder :
    idle.fault = false ∧ (bus (List.replicate 6 true ++ [false]) idle).busAnswers 6 = true ∧ faulted.fault = true := by
  decide

/-- Length 0, length 1 without and with blank fill, and a faulted block. -/
theorem test_premises_RenderTrailingShowsTheTail :
    idle.fault = false ∧ (0 : Len).val = 0 ∧ idle.busAnswers 6 = true ∧ 0 < (1 : Len).val ∧
    (bus [true, false] (shown false)).busAnswers
      (if (shown false).cfg.trailingBlankFill = true then 6 else min 6 (1 : Len).val) = true ∧
    (bus (List.replicate 6 true) (shown true)).busAnswers
      (if (shown true).cfg.trailingBlankFill = true then 6 else min 6 (1 : Len).val) = true ∧
    faulted.fault = true := by decide

/-- A display with stale digits, and one without. -/
theorem test_premises_BlankFillMattersOnlyOnStaleDigits :
    idle.fault = false ∧ 0 < (5 : Len).val ∧ idle.busAnswers 6 = true ∧
    (∃ t, exec (.renderTrailing 0#16 5) { idle with cfg := cfgRef false } = .next t) ∧
    (∃ u, exec (.renderTrailing 0#16 5) { idle with cfg := cfgRef true } = .next u) ∧
    idle.disp[(5 : Fin 6)] ≠ 0#8 ∧ ({ idle with disp := #v[1#8, 2#8, 3#8, 4#8, 5#8, 0#8] } : State).disp[(5 : Fin 6)] = 0#8 :=
  ⟨rfl, by decide, rfl, ⟨_, rfl⟩, ⟨_, rfl⟩, by decide, by decide⟩

/-- Length 0, length 7 on a bus that answers six accesses and no more, and a faulted block. -/
theorem test_premises_RenderResultShowsTheHead :
    idle.fault = false ∧ (bus [false] idle).busAnswers (min 6 (0 : Len).val) = true ∧
    (bus (List.replicate 6 true ++ [false]) idle).busAnswers (min 6 (7 : Len).val) = true ∧ faulted.fault = true := by
  decide

theorem test_premises_EmptyTrailingIsClearAndUnknownIsBlank :
    0x78#8 ∉ alphabet ∧ idle.fault = false ∧ idle.busAnswers 1 = true ∧ (5 : Pos).val < 6 := by decide

/-- For each of the four operations a bus that fails at the last access it makes. -/
theorem test_premises_DisplayHangsOnAnUnansweredAccess :
    idle.fault = false ∧ (bus [false] idle).busAnswers (if (5 : Pos).val ≤ 5 then 1 else 0) = false ∧
    (bus (List.replicate 5 true ++ [false]) idle).busAnswers 6 = false ∧
    (bus (List.replicate 4 true ++ [false]) idle).busAnswers
      (if (5 : Len).val = 0 ∨ idle.cfg.trailingBlankFill = true then 6 else min 6 (5 : Len).val) = false ∧
    (bus (List.replicate 5 true ++ [false]) idle).busAnswers (min 6 (4095 : Len).val) = false := by decide

/-- An operation of the family that faults, and one that does not. -/
theorem test_premises_DisplayFrame :
    (Instr.writeAt 0x38#8 6 ∈ [Instr.writeAt 0x38#8 6, .clearAll, .renderTrailing 0#16 1, .renderResult 0#16 1]) ∧
    seen (fun t => t.fault) (exec (.writeAt 0x38#8 6) idle) = some true ∧
    seen (fun t => t.fault) (exec .clearAll idle) = some false := by decide

/-- The latches at the edge of the window: position 5 for a write at 4 and a tail of five, position 0 for a result of
five; the operations hang part of the way. -/
theorem test_premises_UnwrittenLatchesKeepTheirPattern :
    (∃ t, exec (.writeAt 0x38#8 4) idle = .next t) ∧ (5 : Fin 6).val ≠ (4 : Pos).val ∧
    (∃ t, exec (.renderTrailing 0#16 5) (bus [true, false] idle) = .next t) ∧ 0 < (5 : Len).val ∧
    idle.cfg.trailingBlankFill = false ∧ min 6 (5 : Len).val ≤ (5 : Fin 6).val ∧
    (∃ t, exec (.renderResult 0#16 5) (bus [true, false] idle) = .next t) ∧
    min 6 (5 : Len).val ≤ 5 - (0 : Fin 6).val :=
  ⟨⟨_, rfl⟩, by decide, ⟨_, rfl⟩, by decide, rfl, by decide, ⟨_, rfl⟩, by decide⟩

theorem test_premises_SampleAnswersTheRawBits :
    idle.fault = false ∧ (bus [true, false] idle).busAnswers 1 = true ∧ faulted.fault = true ∧
    (bus [false] idle).busAnswers 1 = false := by decide

theorem test_premises_EveryEventIsInTheRegisterMap : idle.cfg.wf = true ∧ ∃ t, exec .scan idle = .next t :=
  ⟨by decide, _, rfl⟩

theorem test_premises_RegistersDoNotOverlap :
    let a : Access := ⟨.g0, 0x50, 4, false⟩
    let b : Access := ⟨.dlo, 3, 1, true⟩
    idle.cfg.wf = true ∧ a ∈ registerMap idle.cfg ∧ b ∈ registerMap idle.cfg ∧ a ≠ b ∧
    a.busAddress idle.cfg = some 0x50 ∧ b.busAddress idle.cfg = some 0x103 := by decide

theorem test_premises_EveryStepKeepsTheInvariant :
    let s := text [(0, 0x31#8), (0xFFFF, 0x32#8)] (given (.command 0x70000000#32) idle)
    s.Inv ∧ ∃ t, step s = .next t :=
  ⟨⟨by decide, by decide, (by intro e h; cases h), (by intro w h; cases h)⟩, _, rfl⟩

theorem test_premises_ApplicationWithoutWriteAtNeverFaults :
    let s := given (.command 0x10000000#32) idle
    s.fault = false ∧ (∀ (ch : CharCode) (pos : Pos), .command (encode (.writeAt ch pos)) ∉ s.port) ∧
    ∃ t, Host.Core.run Sys2Proof.core 1 s = .next t :=
  ⟨rfl, by decide, _, rfl⟩

end Sys2Proof.Tests
end

section
/-! PROOFS of the scope statements (00_scope.md): the trace against the state (R11), an operation as its actions (R14), and
the registers of the map on the bus (R7, R63). -/

namespace Sys2Proof.Machine

/-! ### The trace against the state -/

/-- The events by which `t` follows `s` account for `ROWSEL` and the latches (R11). -/
theorem Follows.realises {s t : State} (h : Follows s t) :
    ∃ events, t.trace = s.trace ++ events ∧
      t.rowsel = replayRowsel s.rowsel events ∧ t.disp = replayDisp s.disp events := by
  obtain ⟨events, trace, rowsel, disp, -⟩ := h.events
  exact ⟨events, trace, rowsel, disp⟩

/-- Settles O51, by the four ways an operation goes: what its body does follows the state it began in, and a refusal, a
response, a fault or a hang touches neither the trace nor `ROWSEL` nor the latches. -/
theorem traceRealisesTheEffect : Obligations.TraceRealisesTheEffect := by
  intro i s t h
  rcases exec_cases h with ⟨-, rfl⟩ | ⟨-, _, u, -, follows, rfl⟩ | ⟨-, u, -, follows, rfl⟩ | ⟨-, _, _, -, -, rfl⟩
  · exact (Follows.refl s).realises
  · exact follows.realises
  · exact follows.realises
  · exact (Follows.refl s).realises

/-! ### An operation as its actions -/

/-- A sequence of one-event actions that ends has made one event for each of them. -/
theorem runAll_ok_events {l : List Action} {s u : State} (one : ∀ a ∈ l, IsOneEvent a) (h : runAll l s = .ok u) :
    ∃ events, u.trace = s.trace ++ events ∧ events.length = l.length := by
  obtain ⟨events, ⟨t, ht, len, after⟩ | ⟨t, ht, -⟩, -⟩ := runAll_events l s one
  · cases h.symm.trans ht
    exact ⟨events, after.trace, len⟩
  · cases h.symm.trans ht

/-- A sequence of one-event actions that hangs has made fewer events than it has actions. -/
theorem runAll_hang_events {l : List Action} {s u : State} (one : ∀ a ∈ l, IsOneEvent a)
    (h : runAll l s = .error (.hang u)) : ∃ events, u.trace = s.trace ++ events ∧ events.length < l.length := by
  obtain ⟨events, ⟨t, ht, -⟩ | ⟨t, ht, len, trace, -⟩, -⟩ := runAll_events l s one
  · cases h.symm.trans ht
  · cases h.symm.trans ht
    exact ⟨events, trace, len⟩

/-- Settles O14: the operation ends or hangs as the run of its actions does, each of which is one event. -/
theorem actionsMakeUpTheOperation : Obligations.ActionsMakeUpTheOperation := by
  intro i s t running domain h
  rcases exec_actions running domain h with ⟨u, answer, run, rfl⟩ | ⟨u, run, rfl⟩
  · obtain ⟨events, trace, len⟩ := runAll_ok_events (actions_one i s) run
    exact ⟨events, trace, .inl ⟨u, answer, run, rfl, len⟩⟩
  · obtain ⟨events, trace, len⟩ := runAll_hang_events (actions_one i s) run
    exact ⟨events, trace, .inr ⟨u, run, rfl, len⟩⟩

/-! ### The registers on the bus -/

/-- Where a block of registers begins on the bus (R63). `BUF` is the host's and stands nowhere on it. -/
def Space.base (cfg : Config) : Space → Nat
  | .g0 => cfg.baseG0
  | .dlo => cfg.baseDlo
  | .dhi => cfg.baseDhi
  | .buf => 0

/-- How far a block of registers reaches, as the constraints of R7 count it (log 8). -/
def Space.extent (cfg : Config) : Space → Nat
  | .g0 => cfg.g0Extent
  | .dlo => 4
  | .dhi => 4
  | .buf => 0

/-- An access has a bus address exactly in a block of registers: the block's base and its offset (R63). -/
theorem Access.busAddress_eq_some_iff {cfg : Config} {a : Access} {x : Nat} :
    a.busAddress cfg = some x ↔ a.space ≠ .buf ∧ x = a.space.base cfg + a.offset := by
  obtain ⟨space, offset, bytes, write⟩ := a
  cases space <;> simp [Access.busAddress, Space.base, eq_comm]

theorem config_apart_iff {a m b n : Nat} : Config.apart a m b n = true ↔ a + m ≤ b ∨ b + n ≤ a := by
  simp [Config.apart]

/-- The two words of block 0 are four bytes apart at least: both offsets are multiples of 4, and they differ (R7). -/
theorem words_apart_of_wf {cfg : Config} (h : cfg.wf = true) :
    cfg.offOut + 4 ≤ Config.offIn ∨ Config.offIn + 4 ≤ cfg.offOut := by
  simp only [Config.wf, Bool.and_eq_true, decide_eq_true_eq] at h
  obtain ⟨⟨⟨⟨⟨-, aligned⟩, differ⟩, -⟩, -⟩, -⟩ := h
  simp only [Config.offIn] at differ ⊢
  omega

/-- Two blocks of registers occupy disjoint ranges of bus addresses. -/
def Space.Apart (cfg : Config) (p q : Space) : Prop :=
  p.base cfg + p.extent cfg ≤ q.base cfg ∨ q.base cfg + q.extent cfg ≤ p.base cfg

/-- The three blocks are pairwise disjoint on the bus (R7). -/
theorem blocks_apart_of_wf {cfg : Config} (h : cfg.wf = true) {p q : Space} (hp : p ≠ .buf) (hq : q ≠ .buf)
    (hpq : p ≠ q) : p.Apart cfg q := by
  have blocks : [Space.g0, .dlo, .dhi].Pairwise (Space.Apart cfg) := by
    simp only [Config.wf, Bool.and_eq_true, config_apart_iff] at h
    obtain ⟨⟨⟨-, g0_dlo⟩, g0_dhi⟩, dlo_dhi⟩ := h
    simpa using ⟨⟨g0_dlo, g0_dhi⟩, dlo_dhi⟩
  have block : ∀ {p : Space}, p ≠ .buf → p ∈ [Space.g0, .dlo, .dhi] := by intro p; cases p <;> simp
  have : Std.Symm (Space.Apart cfg) := ⟨fun _ _ => Or.symm⟩
  exact blocks.forall (block hp) (block hq) hpq

/-- A register lies within its block. -/
theorem registerMap_within_block {cfg : Config} {a : Access} (h : a ∈ registerMap cfg) :
    a.offset + a.bytes ≤ a.space.extent cfg := by
  revert a
  simp only [registerMap, List.forall_mem_cons, Space.extent, Config.g0Extent]
  simp

/-- Two registers do not overlap where they stand in one block. -/
def Access.ApartInBlock (a b : Access) : Prop :=
  a.space = b.space → a.offset + a.bytes ≤ b.offset ∨ b.offset + b.bytes ≤ a.offset

/-- No two registers of one block overlap: the words of block 0 by the constraints, the bytes of a display block by
their offsets. -/
theorem registerMap_apart_in_block {cfg : Config} (wf : cfg.wf = true) {a b : Access} (ha : a ∈ registerMap cfg)
    (hb : b ∈ registerMap cfg) (hab : a ≠ b) : a.ApartInBlock b := by
  have registers : (registerMap cfg).Pairwise Access.ApartInBlock := by
    simpa [registerMap, Access.ApartInBlock] using words_apart_of_wf wf
  have : Std.Symm Access.ApartInBlock := ⟨fun _ _ apart same => (apart same.symm).symm⟩
  exact registers.forall ha hb hab

/-- Settles O54: registers of one block lie apart by their offsets, those of two blocks because the blocks do. -/
theorem registersDoNotOverlap : Obligations.RegistersDoNotOverlap := by
  intro cfg a b x y wf ha hb hab hx hy
  obtain ⟨notBufA, rfl⟩ := Access.busAddress_eq_some_iff.1 hx
  obtain ⟨notBufB, rfl⟩ := Access.busAddress_eq_some_iff.1 hy
  by_cases same : a.space = b.space
  · have apart := registerMap_apart_in_block wf ha hb hab same
    rw [same]
    omega
  · have apart := blocks_apart_of_wf wf notBufA notBufB same
    simp only [Space.Apart] at apart
    have withinA := registerMap_within_block ha
    have withinB := registerMap_within_block hb
    omega

end Sys2Proof.Machine
end

section
/-! PROOFS of the state statements (10_state.md): the grids (R21 to R23), `ROWSEL` (R25), the routing of the positions
(R29), the register map (R30), the values written (R35), `FAULT` (R37), Reset (R39, R40) and the frames (R41). -/

namespace Sys2Proof

/-! ### The decoder and the encoder are inverse to each other (R83 to R91) -/

/-- A word that its format takes is put together again from its fields; so for each of the five formats. -/
theorem formatN_inv {w : Word} {op : BitVec 4} {i j : Instr} (opcode : opField w = op) (h : formatN w i = .ok j) :
    wordN op = w ∧ i = j := by
  unfold formatN at h
  split at h
  · next zero => cases h; exact ⟨opcode ▸ wordN_fields w zero, rfl⟩
  · cases h

theorem formatK_inv {w : Word} {op : BitVec 4} {i j : Instr} (opcode : opField w = op) (h : formatK w i = .ok j) :
    wordK op (rowField w) (colField w) = w ∧ i = j := by
  unfold formatK at h
  split at h
  · next zero => cases h; exact ⟨opcode ▸ wordK_fields w zero, rfl⟩
  · cases h

theorem formatC_inv {w : Word} {op : BitVec 4} {i j : Instr} (opcode : opField w = op) (h : formatC w i = .ok j) :
    wordC op (chField w) = w ∧ i = j := by
  unfold formatC at h
  split at h
  · next zero => cases h; exact ⟨opcode ▸ wordC_fields w zero, rfl⟩
  · cases h

theorem formatP_inv {w : Word} {op : BitVec 4} {i j : Instr} (opcode : opField w = op) (h : formatP w i = .ok j) :
    wordP op (posField w) (chField w) = w ∧ i = j := by
  unfold formatP at h
  split at h
  · next zero => cases h; exact ⟨opcode ▸ wordP_fields w zero, rfl⟩
  · cases h

theorem wordB_of_fields {w : Word} {op : BitVec 4} (opcode : opField w = op) :
    wordB op (lenField w) (baseField w) = w := opcode ▸ wordB_fields w

/-- The word of an operation has the opcode and the zero field that its format asks for. -/
theorem decode_encode (i : Instr) : decode (encode i) = .ok i := by
  cases i <;> simp [encode, decode]

/-- A word that decodes is put together again from its opcode, its operands and its zero field. -/
theorem encode_of_decode {w : Word} {i : Instr} (h : decode w = .ok i) : encode i = w := by
  unfold decode at h
  split at h
  case h_1 op => obtain ⟨word, rfl⟩ := formatN_inv op h; exact word
  case h_2 op => obtain ⟨word, rfl⟩ := formatK_inv op h; exact word
  case h_3 op => obtain ⟨word, rfl⟩ := formatK_inv op h; exact word
  case h_4 op => obtain ⟨word, rfl⟩ := formatK_inv op h; exact word
  case h_5 op => obtain ⟨word, rfl⟩ := formatC_inv op h; exact word
  case h_6 op => obtain ⟨word, rfl⟩ := formatP_inv op h; exact word
  case h_7 op => obtain ⟨word, rfl⟩ := formatN_inv op h; exact word
  case h_8 op => cases h; exact wordB_of_fields op
  case h_9 op => cases h; exact wordB_of_fields op
  case h_10 op => obtain ⟨word, rfl⟩ := formatN_inv op h; exact word
  case h_11 => cases h

end Sys2Proof

namespace Sys2Proof.Machine

/-! ### What every operation keeps -/

/-- An operation, whichever way it goes, keeps the parameters, `BUF` and the port, and adds legal events (R35, R41). -/
theorem exec_accepted {i : Instr} {s t : State} (h : exec i s = .next t) : Accepted s t := by
  rcases exec_cases h with ⟨-, rfl⟩ | ⟨-, _, u, -, follows, rfl⟩ | ⟨-, u, -, follows, rfl⟩ | ⟨-, _, _, -, -, rfl⟩
  · exact ⟨rfl, rfl, rfl, (Accepted.refl s).events⟩
  · obtain ⟨events, trace, -, -, legal⟩ := follows.events
    exact ⟨follows.cfg, follows.buf, follows.port, events, trace, legal⟩
  · obtain ⟨events, trace, -, -, legal⟩ := follows.events
    exact ⟨follows.cfg, follows.buf, follows.port, events, trace, legal⟩
  · exact ⟨rfl, rfl, rfl, (Accepted.refl s).events⟩

/-- An operation answers with one legal response word, or hangs and answers nothing (R70, R88). -/
theorem exec_responses {i : Instr} {s t : State} (h : exec i s = .next t) :
    t.responses = s.responses ∨ ∃ w, legalResponse w ∧ t.responses = s.responses ++ [w] := by
  rcases exec_cases h with ⟨-, rfl⟩ | ⟨-, d, u, -, follows, rfl⟩ | ⟨-, u, -, follows, rfl⟩ | ⟨-, _, _, -, -, rfl⟩
  · exact .inr ⟨_, by simp [legalResponse], rfl⟩
  · exact .inr ⟨_, .inl ⟨d, rfl⟩, by rw [State.respond_responses, follows.responses]⟩
  · exact .inl follows.responses
  · exact .inr ⟨_, by simp [legalResponse], rfl⟩

/-- `WRITE_AT` with a position past 5 raises `PositionRange` before any access (R141, R171). -/
theorem exec_writeAt_out_of_range {ch : CharCode} {pos : Pos} {s : State} (running : s.fault = false)
    (past : 5 < pos.val) : exec (.writeAt ch pos) s =
      .next { s with fault := true, responses := s.responses ++ [0x80010000#32] } := by
  rw [exec_eq_perform, perform_running _ _ running]
  simp only [body, writeAt_raises past]
  exact congrArg Host.Outcome.next (raise_position pos s)

/-- An operation on a block that is not faulted sets `FAULT` exactly if it is a `WRITE_AT` with a position past 5 (R37). -/
theorem exec_fault_iff {i : Instr} {s t : State} (running : s.fault = false) (h : exec i s = .next t) :
    t.fault = true ↔ ∃ ch pos, i = .writeAt ch pos ∧ 5 < pos.val := by
  constructor
  · intro faulted
    rcases exec_cases h with ⟨f, -⟩ | ⟨-, _, u, -, follows, rfl⟩ | ⟨-, u, -, follows, rfl⟩ | ⟨-, ch, pos, hi, past, -⟩
    · simp [running] at f
    · simp [follows.fault, running] at faulted
    · simp [show u.fault = s.fault from follows.fault, running] at faulted
    · exact ⟨ch, pos, hi, past⟩
  · rintro ⟨ch, pos, rfl, past⟩
    rw [exec_writeAt_out_of_range running past] at h
    cases h
    rfl

/-- An operation whose body is an answer, without an access, changes nothing but the list of responses. -/
theorem exec_only_responses {i : Instr} {s t : State} {d : BitVec 8} (answers : body i s = .ok (d, s))
    (h : exec i s = .next t) : t = { s with responses := t.responses } := by
  rw [exec_eq_perform, perform, answers] at h
  cases h
  split <;> rfl

/-! ### The keypad's registers are left alone by every operation but `SCAN` -/

/-- `t` has the grids and the row lines of `s`. -/
def SameKeypad (s t : State) : Prop := t.cur = s.cur ∧ t.prev = s.prev ∧ t.rowsel = s.rowsel

theorem SameKeypad.refl (s : State) : SameKeypad s s := ⟨rfl, rfl, rfl⟩

theorem SameKeypad.trans {s t u : State} (h : SameKeypad s t) (k : SameKeypad t u) : SameKeypad s u := by
  obtain ⟨cur, prev, rowsel⟩ := h
  obtain ⟨cur', prev', rowsel'⟩ := k
  exact ⟨cur'.trans cur, prev'.trans prev, rowsel'.trans rowsel⟩

theorem OnlyDisplay.sameKeypad {s t : State} (h : OnlyDisplay s t) : SameKeypad s t := by
  rw [h]; exact ⟨rfl, rfl, rfl⟩

/-- The body of an operation ends, hangs or raises in a state with the keypad's registers of `s`. -/
def BodyKeepsKeypad (s : State) : Except Stop (BitVec 8 × State) → Prop
  | .ok (_, t) => SameKeypad s t
  | .error (.hang t) => SameKeypad s t
  | .error (.raised _ t) => SameKeypad s t

theorem BodyKeepsKeypad.of_display {s : State} {r : Except Stop State} (h : EndsWithin OnlyDisplay s r) :
    BodyKeepsKeypad s (thenZero r) := by
  match r, h with
  | .ok _, h => exact OnlyDisplay.sameKeypad h
  | .error (.hang _), h => exact OnlyDisplay.sameKeypad h

/-- A read of the pins draws a word and changes no state of the block (R55). -/
theorem sample_keeps_keypad (s : State) : BodyKeepsKeypad s (body .sample s) := by
  simp only [body, inputRead, nextInput_eq]
  rcases busAccess_cases s with ok | ⟨rest, -, hang⟩
  · rw [ok]; exact ⟨rfl, rfl, rfl⟩
  · rw [hang]; exact ⟨rfl, rfl, rfl⟩

theorem body_keeps_keypad {i : Instr} (notScan : i ≠ .scan) (s : State) : BodyKeepsKeypad s (body i s) := by
  cases i with
  | scan => exact absurd rfl notScan
  | isPressed | justPressed | justReleased | encode => exact SameKeypad.refl s
  | writeAt ch pos =>
    by_cases inRange : pos.val ≤ 5
    · simp only [body, writeAt_in inRange]; exact .of_display (put_only _ _ s)
    · simp only [body, writeAt_raises (Nat.not_le.1 inRange)]; exact SameKeypad.refl s
  | clearAll => exact .of_display (blankDigits_only digits s)
  | renderTrailing base len => exact .of_display (renderTrailing_only base len s)
  | renderResult base len => exact .of_display (showResult_only base len s)
  | sample => exact sample_keeps_keypad s

/-- An operation other than `SCAN` leaves the grids and the row lines alone, whichever way it goes (R23). -/
theorem exec_keeps_keypad {i : Instr} {s t : State} (notScan : i ≠ .scan) (h : exec i s = .next t) :
    SameKeypad s t := by
  have keeps := body_keeps_keypad notScan s
  rcases exec_cases h with ⟨-, rfl⟩ | ⟨-, _, u, ends, -, rfl⟩ | ⟨-, u, ends, -, rfl⟩ | ⟨-, _, _, -, -, rfl⟩
  · exact SameKeypad.refl s
  · rw [ends] at keeps; exact keeps
  · rw [ends] at keeps; exact keeps
  · exact SameKeypad.refl s

/-! ### Everything `SCAN` can do -/

/-- The state in which a scan answers whose twelve accesses have completed (R112). -/
def afterScan (s : State) : State := { s with
  prev := s.cur
  cur := Grid.ofFn fun r c => (s.upcoming r.val).getLsbD (5 + c.val)
  rowsel := 0#4
  inputs := s.inputs.drop 4
  draws := s.draws + s.freeDraws 4
  bus := s.bus.drop 12
  trace := s.trace ++ scanTrace s.cfg fun r => s.upcoming r.val }

@[simp] theorem afterScan_prev (s : State) : (afterScan s).prev = s.cur := rfl
@[simp] theorem afterScan_rowsel (s : State) : (afterScan s).rowsel = 0#4 := rfl
@[simp] theorem afterScan_disp (s : State) : (afterScan s).disp = s.disp := rfl
@[simp] theorem afterScan_fault (s : State) : (afterScan s).fault = s.fault := rfl

theorem exec_scan_answered {s : State} (running : s.fault = false) (bus : s.busAnswers 12 = true) :
    exec .scan s = .next ((afterScan s).respond 0x00000000#32) := by
  rw [exec_eq_perform, perform_running _ _ running]
  simp only [body, scan_answered s bus]
  exact congrArg Host.Outcome.next (settle_ok 0#8 (afterScan s))

theorem exec_scan_hangs {s : State} (running : s.fault = false) (bus : s.busAnswers 12 = false) :
    ∃ k rest u, k < 12 ∧ Scanned s u k rest ∧ exec .scan s = .next { u with hung := true } := by
  obtain ⟨k, rest, hk, stalls⟩ := first_hang s.bus 12 bus
  obtain ⟨u, hangs, scanned⟩ := scan_hang s hk stalls
  refine ⟨k, rest, u, hk, scanned, ?_⟩
  rw [exec_eq_perform, perform_running _ _ running]
  simp only [body, hangs]
  rfl

/-- The inversion of `SCAN`: it is refused, samples the four rows, or hangs at one of its twelve accesses. -/
theorem exec_scan_cases {s t : State} (h : exec .scan s = .next t) :
    (s.fault = true ∧ t = { s with responses := s.responses ++ [0x80030000#32] }) ∨
    (s.fault = false ∧ s.busAnswers 12 = true ∧ t = (afterScan s).respond 0x00000000#32) ∨
    (s.fault = false ∧ s.busAnswers 12 = false ∧
      ∃ k rest u, k < 12 ∧ Scanned s u k rest ∧ t = { u with hung := true }) := by
  rcases Bool.eq_false_or_eq_true s.fault with faulted | running
  · rw [exec_eq_perform, perform_faulted _ _ faulted] at h
    cases h
    exact .inl ⟨faulted, rfl⟩
  rcases Bool.eq_false_or_eq_true (s.busAnswers 12) with bus | bus
  · rw [exec_scan_answered running bus] at h
    cases h
    exact .inr (.inl ⟨running, bus, rfl⟩)
  · obtain ⟨k, rest, u, hk, scanned, hangs⟩ := exec_scan_hangs running bus
    rw [hangs] at h
    cases h
    exact .inr (.inr ⟨running, bus, k, rest, u, hk, scanned, rfl⟩)

/-- Settles O28: a scan that completes ends in `afterScan`, and no other operation reaches the grids. -/
theorem scanIsTheOnlyMutatorOfTheGrids : Obligations.ScanIsTheOnlyMutatorOfTheGrids := by
  refine ⟨fun s t running bus h => ?_, fun i s t notScan h => ?_⟩
  · rw [exec_scan_answered running bus] at h
    cases h
    rfl
  · obtain ⟨cur, prev, -⟩ := exec_keeps_keypad notScan h
    exact ⟨cur, prev⟩

/-- Settles O34: whichever way the scan goes, and the rest of the frame is that of every operation. -/
theorem scanFrame : Obligations.ScanFrame := by
  intro s t h
  have accepted := exec_accepted h
  obtain ⟨disp, fault⟩ : t.disp = s.disp ∧ t.fault = s.fault := by
    rcases exec_scan_cases h with ⟨-, rfl⟩ | ⟨-, -, rfl⟩ | ⟨-, -, _, _, u, -, scanned, rfl⟩
    · exact ⟨rfl, rfl⟩
    · exact ⟨rfl, rfl⟩
    · exact ⟨scanned.disp, scanned.fault⟩
  exact ⟨disp, fault, accepted.cfg, accepted.port, fun a => by rw [accepted.buf]⟩

/-- Settles O35: the four bodies are an answer without an access. -/
theorem queriesAndEncodeFrame : Obligations.QueriesAndEncodeFrame := by
  intro row col ch i s t hi h
  simp only [List.mem_cons, List.not_mem_nil, or_false] at hi
  rcases hi with rfl | rfl | rfl | rfl <;> exact exec_only_responses rfl h

/-! ### The steps between two scans -/

/-- A step takes one stimulus from the port, or none. -/
theorem step_port {s t : State} (h : step s = .next t) : t.port = s.port ∨ ∃ x, s.port = x :: t.port := by
  rcases step_cases h with ⟨rfl, -⟩ | ⟨_, rest, u, port, accepted, -, -, rfl⟩ | ⟨a, ch, rest, port, -, rfl⟩ |
    ⟨w, rest, port, -, ⟨-, rfl⟩ | ⟨-, -, rfl⟩ | ⟨-, i, -, run⟩⟩
  · exact .inl rfl
  · exact .inr ⟨_, port.trans (congrArg _ accepted.port.symm)⟩
  · exact .inr ⟨_, port⟩
  · exact .inr ⟨_, port⟩
  · exact .inr ⟨_, port⟩
  · exact .inr ⟨_, port.trans (congrArg _ (exec_accepted run).port.symm)⟩

/-- A block that runs nothing and is not faulted runs the operation of the next command (R80, R81). -/
theorem step_runs {s : State} {w : Word} {rest : List Stimulus} {i : Instr} (port : s.port = .command w :: rest)
    (idle : s.hung = false) (running : s.fault = false) (dec : decode w = .ok i) :
    step s = exec i { s with port := rest } := by
  rw [step_command port idle]
  simp [acceptCommand, running, dec]

/-- A stimulus that is neither a Reset nor the command `SCAN`. -/
def Stimulus.LeavesKeypad (x : Stimulus) : Prop := (∀ during, x ≠ .reset during) ∧ x ≠ .command (encode .scan)

/-- A step that takes neither a Reset nor a `SCAN` leaves the grids and the row lines alone. -/
theorem step_keeps_keypad {s t : State} (h : step s = .next t) (quiet : ∀ x ∈ s.port.take 1, x.LeavesKeypad) :
    SameKeypad s t := by
  rcases step_cases h with ⟨rfl, -⟩ | ⟨during, rest, u, port, -⟩ | ⟨a, ch, rest, port, -, rfl⟩ |
    ⟨w, rest, port, -, ⟨-, rfl⟩ | ⟨-, -, rfl⟩ | ⟨-, i, dec, run⟩⟩
  · exact SameKeypad.refl t
  · exact absurd rfl ((quiet (.reset during) (by simp [port])).1 during)
  · exact ⟨rfl, rfl, rfl⟩
  · exact ⟨rfl, rfl, rfl⟩
  · exact ⟨rfl, rfl, rfl⟩
  · have notScan : i ≠ .scan := by
      rintro rfl
      exact (quiet (.command w) (by simp [port])).2 (by rw [encode_of_decode dec])
    change SameKeypad { s with port := rest } t
    exact exec_keeps_keypad notScan run

/-- Steps that take neither a Reset nor a `SCAN`, however many, leave the grids and the row lines alone. -/
theorem run_keeps_keypad : ∀ (n : Nat) (s t : State), Host.Core.run Sys2Proof.core n s = .next t →
    (∀ x ∈ s.port.take n, x.LeavesKeypad) → SameKeypad s t := by
  intro n
  induction n with
  | zero =>
    intro s t h _
    cases h
    exact SameKeypad.refl s
  | succ n ih =>
    intro s t h quiet
    rw [run_succ] at h
    match first : step s, h with
    | .next u, h =>
      have now : SameKeypad s u := step_keeps_keypad first fun x hx =>
        quiet x ((List.take_subset_take_left _ (by omega)) hx)
      refine now.trans (ih u t h fun x hx => quiet x ?_)
      rcases step_port first with port | ⟨y, port⟩
      · rw [port] at hx
        exact List.take_subset_take_left _ (by omega) hx
      · rw [port, List.take_succ_cons]
        exact List.mem_cons_of_mem _ hx

/-- Settles O29: the steps in between keep both grids, by induction on their number, and the scan copies `CUR`. -/
theorem previousAfterNextScanIsCurrentAfterThis : Obligations.PreviousAfterNextScanIsCurrentAfterThis := by
  intro n s t run quiet
  obtain ⟨cur, prev, -⟩ := run_keeps_keypad n s t run quiet
  refine ⟨cur, prev, fun rest u port idle running bus scan => ?_⟩
  rw [step_runs port idle running (decode_encode .scan),
    exec_scan_answered (s := { t with port := rest }) running bus] at scan
  cases scan
  exact cur

/-- Settles O32: a scan that does not hang is refused, and `ROWSEL` is as before, or has released the rows; no other
operation reaches `ROWSEL`. -/
theorem noRowSelectedBetweenScans : Obligations.NoRowSelectedBetweenScans := by
  refine ⟨fun s t running bus h => ?_, fun s t h released answers noReset => ?_⟩
  · rw [exec_scan_answered running bus] at h
    cases h
    rfl
  · rcases step_cases h with ⟨rfl, -⟩ | ⟨during, rest, u, port, -⟩ | ⟨a, ch, rest, port, -, rfl⟩ |
      ⟨w, rest, port, -, ⟨-, rfl⟩ | ⟨-, -, rfl⟩ | ⟨-, i, -, run⟩⟩
    · exact released
    · exact absurd port (noReset during rest)
    · exact released
    · exact released
    · exact released
    · by_cases scan : i = .scan
      · subst scan
        rcases exec_scan_cases run with ⟨-, rfl⟩ | ⟨-, -, rfl⟩ | ⟨-, -, _, _, u, -, -, rfl⟩
        · exact released
        · rfl
        · cases answers
      · obtain ⟨-, -, rowsel⟩ := exec_keeps_keypad scan run
        exact rowsel.trans released

/-! ### Reset -/

/-- A step that takes a Reset is the reset event, in a state that the operation in progress has reached (R200). -/
theorem step_reset {s t : State} {during : Option (Word × Nat)} {rest : List Stimulus}
    (port : s.port = .reset during :: rest) (h : step s = .next t) :
    ∃ u, Accepted { s with port := rest } u ∧ (during = none → u = { s with port := rest }) ∧ t = u.resetEvent := by
  obtain ⟨u, reset, accepted, -, between⟩ := acceptReset_cases during { s with port := rest }
  simp only [step, nextStimulus, port, reset] at h
  cases h
  exact ⟨u, accepted, between, rfl⟩

/-- Settles O13: the part of an operation before the Reset keeps the parameters and `BUF` and adds events, and the reset
event touches none of them. -/
theorem resetLeavesTheOutsideAlone : Obligations.ResetLeavesTheOutsideAlone := by
  intro s t during rest port h
  obtain ⟨u, accepted, between, rfl⟩ := step_reset port h
  obtain ⟨events, trace, -⟩ := accepted.events
  refine ⟨accepted.cfg, fun a => congrArg (·.read a) accepted.buf, ⟨events, trace⟩, fun none => ?_⟩
  rw [between none]
  exact ⟨rfl, rfl, rfl⟩

@[simp] theorem Grid.cell_atReset (r : Row) (c : Col) : Grid.atReset.cell r c = false := Grid.cell_ofFn ..

/-- Settles O16: the predicates are combinations of cells that are false. -/
theorem resetLeavesKeysIdle : Obligations.ResetLeavesKeysIdle := by
  refine ⟨rfl, rfl, fun row col => ?_⟩
  simp [State.pressed, State.justPressed, State.justReleased, State.reset]

/-! ### `FAULT` -/

/-- A faulted block refuses whatever command comes (R173). -/
theorem step_refuses {s : State} {w : Word} {rest : List Stimulus} (port : s.port = .command w :: rest)
    (idle : s.hung = false) (faulted : s.fault = true) :
    step s = .next { s with port := rest, responses := s.responses ++ [0x80030000#32] } := by
  rw [step_command port idle, acceptCommand, if_pos faulted, raise_faulted]

/-- A step from `FAULT = 0` sets `FAULT` only if it takes a `WRITE_AT` with a position past 5. -/
theorem step_sets_fault {s t : State} (h : step s = .next t) (running : s.fault = false) (faults : t.fault = true) :
    s.hung = false ∧ ∃ (ch : CharCode) (pos : Pos) (rest : List Stimulus),
      s.port = .command (encode (.writeAt ch pos)) :: rest ∧ 5 < pos.val := by
  have unchanged : s.fault ≠ true := by simp [running]
  rcases step_cases h with ⟨rfl, -⟩ | ⟨_, _, u, -, -, -, -, rfl⟩ | ⟨_, _, _, -, -, rfl⟩ |
    ⟨w, rest, port, idle, ⟨-, rfl⟩ | ⟨-, -, rfl⟩ | ⟨-, i, dec, run⟩⟩
  · exact absurd faults unchanged
  · cases faults
  · exact absurd faults unchanged
  · exact absurd faults unchanged
  · exact absurd faults unchanged
  · obtain ⟨ch, pos, rfl, past⟩ := (exec_fault_iff (s := { s with port := rest }) running run).1 faults
    exact ⟨idle, ch, pos, rest, by rw [encode_of_decode dec]; exact port, past⟩

/-- A step from `FAULT = 1` clears `FAULT` only if it takes a Reset. -/
theorem step_clears_fault {s t : State} (h : step s = .next t) (faulted : s.fault = true) (cleared : t.fault = false) :
    ∃ during rest, s.port = .reset during :: rest := by
  have unchanged : s.fault ≠ false := by simp [faulted]
  rcases step_cases h with ⟨rfl, -⟩ | ⟨during, rest, _, port, -⟩ | ⟨_, _, _, -, -, rfl⟩ |
    ⟨_, _, -, -, ⟨-, rfl⟩ | ⟨running, -⟩ | ⟨running, -⟩⟩
  · exact absurd cleared unchanged
  · exact ⟨during, rest, port⟩
  · exact absurd cleared unchanged
  · exact absurd cleared unchanged
  · exact absurd running unchanged
  · exact absurd running unchanged

/-- Settles O10: the two ways `FAULT` changes, each by the inversion of the step, and the command that is refused. -/
theorem faultIsSetByOutOfRangePositionOnly : Obligations.FaultIsSetByOutOfRangePositionOnly := by
  refine ⟨rfl, fun s t h running => ⟨step_sets_fault h running, ?_⟩, fun s t => step_clears_fault,
    fun s during rest t port h => ?_, fun s w rest => step_refuses⟩
  · rintro ⟨idle, ch, pos, rest, port, past⟩
    rw [step_runs port idle running (decode_encode _)] at h
    exact (exec_fault_iff (s := { s with port := rest }) running h).2 ⟨ch, pos, rfl, past⟩
  · obtain ⟨u, -, -, rfl⟩ := step_reset port h
    rfl

/-! ### The routing of the positions, and the register map -/

/-- Settles O37: the table by its six entries, and the write of `put` when its access completes. -/
theorem positionsAreRoutedToTheirHalf : Obligations.PositionsAreRoutedToTheirHalf :=
  ⟨by decide, fun p v s answered => put_answered p v s 0 answered⟩

/-- A byte of a display block that is a latch is a register of the map (R30, R34). -/
theorem dispWrite_allowed {h : Half} {k : Fin 4} (cfg : Config) (v : Pattern) (latch : (latchAt h k).isSome = true) :
    ((Event.dispWrite h k v).access cfg).allowed cfg := by
  refine .inl ?_
  cases h with
  | lo => fin_cases k <;> simp [Event.access, registerMap]
  | hi =>
    have low : k.val < 2 := by simpa [latchAt] using latch
    obtain ⟨k, hk⟩ := k
    interval_cases k <;> simp [Event.access, registerMap]

/-- A legal event reaches a register of the map in its direction, or reads a byte of `BUF`. -/
theorem Event.Legal.access_allowed {cfg : Config} {e : Event} (legal : e.Legal cfg) : (e.access cfg).allowed cfg := by
  cases e with
  | rowSel v => exact .inl (by simp [Event.access, registerMap])
  | inRead w => exact .inl (by simp [Event.access, registerMap])
  | dispWrite h k v => exact dispWrite_allowed cfg v legal.1
  | bufRead a b => exact .inr ⟨rfl, a.isLt, rfl, rfl⟩

/-- The constraints place `OFF_OUT` at a multiple of 4, `OFF_IN` is one, and every other access is of a byte (R7, R60). -/
theorem access_aligned {cfg : Config} (wf : cfg.wf = true) (e : Event) :
    (e.access cfg).offset % (e.access cfg).bytes = 0 := by
  simp only [Config.wf, Bool.and_eq_true, decide_eq_true_eq] at wf
  obtain ⟨⟨⟨⟨⟨-, aligned⟩, -⟩, -⟩, -⟩, -⟩ := wf
  cases e with
  | rowSel v => exact aligned
  | inRead w => exact (by decide : Config.offIn % 4 = 0)
  | dispWrite h k v => cases h <;> exact Nat.mod_one _
  | bufRead a b => exact Nat.mod_one _

/-- Settles O53: the events of an operation are legal, and a legal event is an access of the map. -/
theorem everyEventIsInTheRegisterMap : Obligations.EveryEventIsInTheRegisterMap := by
  intro i s t wf h
  obtain ⟨events, trace, legal⟩ := (exec_accepted h).events
  exact ⟨events, trace, fun e he => ⟨(legal e he).access_allowed, access_aligned wf e⟩⟩

/-! ### The invariant -/

/-- What keeps the parameters and `BUF`, adds legal events and answers at most one legal response keeps the invariant. -/
theorem State.Inv.accepted {s t : State} (inv : s.Inv) (accepted : Accepted s t)
    (responses : t.responses = s.responses ∨ ∃ w, legalResponse w ∧ t.responses = s.responses ++ [w]) : t.Inv := by
  obtain ⟨events, trace, legal⟩ := accepted.events
  refine ⟨accepted.cfg ▸ inv.params, accepted.buf ▸ inv.buffer, fun e he => ?_, fun w hw => ?_⟩
  · rw [accepted.cfg]
    rw [trace] at he
    exact (List.mem_append.1 he).elim (inv.events e) (legal e)
  · rcases responses with same | ⟨r, legalAnswer, answered⟩
    · exact inv.answers w (same ▸ hw)
    · rw [answered] at hw
      rcases List.mem_append.1 hw with old | new
      · exact inv.answers w old
      · exact List.mem_singleton.1 new ▸ legalAnswer

/-- The invariant does not look at the port. -/
theorem State.Inv.port {s : State} (inv : s.Inv) (rest : List Stimulus) : State.Inv { s with port := rest } :=
  ⟨inv.params, inv.buffer, inv.events, inv.answers⟩

theorem State.Inv.resetEvent {s : State} (inv : s.Inv) : s.resetEvent.Inv :=
  ⟨inv.params, inv.buffer, inv.events, inv.answers⟩

theorem State.Inv.storeByte {s : State} (inv : s.Inv) (a : BufAddr) (ch : CharCode) : (s.storeByte a ch).Inv :=
  ⟨inv.params, Memory.wf_insert _ _ _ inv.buffer a.isLt, inv.events, inv.answers⟩

/-- A command that is answered and does nothing else. -/
theorem State.Inv.respond {s : State} (inv : s.Inv) {w : Word} (legal : legalResponse w) : (s.respond w).Inv :=
  inv.accepted ⟨rfl, rfl, rfl, (Accepted.refl s).events⟩ (.inr ⟨w, legal, rfl⟩)

/-- Settles O55, by the ways a step goes: nothing, a Reset, a store, a command refused, an operation. -/
theorem everyStepKeepsTheInvariant : Obligations.EveryStepKeepsTheInvariant := by
  intro s t inv h
  rcases step_cases h with ⟨rfl, -⟩ | ⟨_, rest, u, -, accepted, silent, -, rfl⟩ | ⟨a, ch, rest, -, -, rfl⟩ |
    ⟨w, rest, -, -, ⟨-, rfl⟩ | ⟨-, -, rfl⟩ | ⟨-, i, -, run⟩⟩
  · exact inv
  · exact ((inv.port rest).accepted accepted (.inl silent)).resetEvent
  · exact (inv.port rest).storeByte a ch
  · exact (inv.port rest).respond (w := 0x80030000#32) (by simp [legalResponse])
  · exact (inv.port rest).respond (w := 0x80020000#32) (by simp [legalResponse])
  · exact (inv.port rest).accepted (exec_accepted run) (exec_responses run)

end Sys2Proof.Machine
end

section
/-! PROOFS of the memory statements (20_memory.md): `BUF` as the host's memory (R53, R62), the parameters (R68), and the
accesses that complete or never do (R70), for the display driver counted operation by operation (R141 to R144). -/

namespace Sys2Proof.Machine

/-! ### `BUF` and the parameters -/

theorem Memory.read_insert_same (m : Memory) (a : BufAddr) (ch : CharCode) :
    (Memory.insert m a.toNat ch).read a = ch := by
  simp [Memory.read, Memory.stored_insert]

theorem Memory.read_insert_other {m : Memory} {a x : BufAddr} (other : x ≠ a) (ch : CharCode) :
    (Memory.insert m a.toNat ch).read x = m.read x := by
  have differ : a.toNat ≠ x.toNat := fun same => other (BitVec.eq_of_toNat_eq same.symm)
  simp [Memory.read, Memory.stored_insert, differ]

/-- A store of the host's finds the block running nothing and is performed (R53, log 20). -/
theorem step_store {s : State} {a : BufAddr} {ch : CharCode} {rest : List Stimulus}
    (port : s.port = .store a ch :: rest) (idle : s.hung = false) :
    step s = .next (({ s with port := rest } : State).storeByte a ch) := by
  simp [step, nextStimulus, port, idle]

/-- Settles O21: the step is the insertion in `BUF`, whose reads are those of a memory. -/
theorem hostStoreIsReadBack : Obligations.HostStoreIsReadBack := by
  intro s a ch rest port idle
  exact ⟨Memory.insert s.buf a.toNat ch, step_store port idle, Memory.read_insert_same s.buf a ch,
    fun x other => Memory.read_insert_other other ch⟩

/-- Settles O20, by the ways a step goes: a store inserts in `BUF`, and the part of a command that runs keeps both. -/
theorem tablesAreImmutableAndBufferIsTheHosts : Obligations.TablesAreImmutableAndBufferIsTheHosts := by
  intro s t h
  rcases step_cases h with ⟨rfl, -⟩ | ⟨_, rest, u, -, accepted, -, -, rfl⟩ | ⟨a, ch, rest, port, -, rfl⟩ |
    ⟨w, rest, -, -, ⟨-, rfl⟩ | ⟨-, -, rfl⟩ | ⟨-, i, -, run⟩⟩
  · exact ⟨rfl, fun _ => rfl⟩
  · exact ⟨accepted.cfg, fun _ => accepted.buf⟩
  · exact ⟨rfl, fun noStore => absurd port (noStore a ch rest)⟩
  · exact ⟨rfl, fun _ => rfl⟩
  · exact ⟨rfl, fun _ => rfl⟩
  · exact ⟨(exec_accepted run).cfg, fun _ => (exec_accepted run).buf⟩

/-! ### An access that never completes -/

/-- Settles O17, by the next stimulus: none, a Reset, which is shut out, or one that a hung block does not look at. -/
theorem hungBlockWaitsForReset : Obligations.HungBlockWaitsForReset := by
  intro s hung noReset
  unfold step nextStimulus
  split
  · rfl
  · next during rest port => exact absurd port (noReset during rest)
  · rw [if_pos hung]
  · rw [if_pos hung]

/-- Every operation has a next state (R177). -/
theorem exec_answers (i : Instr) (s : State) : ∃ t, exec i s = .next t := ⟨_, exec_eq_perform i s⟩

/-- A bus on which every access completes comes to none that never does. -/
theorem State.BusResponsive.no_hang {s : State} (responsive : s.BusResponsive) {k : Nat} {rest : List Bool} :
    s.bus ≠ List.replicate k true ++ false :: rest := by
  intro bus
  simp [State.BusResponsive, bus] at responsive

/-- Settles O19, by the ways an operation goes: all but the hang answer, and a hang needs an access that never
completes. -/
theorem everyOperationEndsOnResponsiveBus : Obligations.EveryOperationEndsOnResponsiveBus := by
  intro s i responsive idle
  obtain ⟨t, run⟩ := exec_answers i s
  refine ⟨t, run, ?_⟩
  rcases exec_cases run with ⟨-, rfl⟩ | ⟨-, d, u, -, follows, rfl⟩ | ⟨-, u, -, follows, rfl⟩ | ⟨-, _, _, -, -, rfl⟩
  · exact ⟨idle, _, rfl⟩
  · exact ⟨follows.hung.trans idle, _, by rw [State.respond_responses, follows.responses]⟩
  · obtain ⟨k, bus⟩ := follows.bus
    exact absurd bus responsive.no_hang
  · exact ⟨idle, _, rfl⟩

/-! ### How many accesses the display driver makes -/

/-- Some actions make `n` accesses: where they come to their end, the next `n` have completed and are used up. -/
def MakesAccesses (n : Nat) (l : List Action) : Prop :=
  ∀ s t, runAll l s = .ok t → s.busAnswers n = true ∧ t.bus = s.bus.drop n

theorem MakesAccesses.nil : MakesAccesses 0 [] := by
  intro s t h
  cases h
  exact ⟨busAnswers_zero s, rfl⟩

theorem MakesAccesses.append {m n : Nat} {k l : List Action} (first : MakesAccesses m k) (second : MakesAccesses n l) :
    MakesAccesses (m + n) (k ++ l) := by
  intro s t h
  rw [runAll_append] at h
  match run : runAll k s, h with
  | .ok u, h =>
    obtain ⟨answered, bus⟩ := first s u run
    obtain ⟨answered', bus'⟩ := second u t h
    refine ⟨?_, by rw [bus', bus, List.drop_drop]⟩
    rw [State.busAnswers, bus] at answered'
    rw [State.busAnswers, List.take_add, List.all_append, Bool.and_eq_true]
    exact ⟨answered, answered'⟩

theorem MakesAccesses.flatMap {α : Type} {f : α → List Action} (one : ∀ x, MakesAccesses 1 (f x)) :
    ∀ l : List α, MakesAccesses l.length (l.flatMap f)
  | [] => .nil
  | x :: l => by
    rw [List.length_cons, Nat.add_comm, List.flatMap_cons]
    exact (one x).append (flatMap one l)

theorem put_accesses (p : Digit) (v : State → Pattern) : MakesAccesses 1 [fun s => put p (v s) s] := by
  intro s t h
  rw [runAll_single, put_eq] at h
  split at h
  · cases h
  · next completes =>
    cases h
    refine ⟨?_, rfl⟩
    match bus : s.bus with
    | [] => simp [State.busAnswers, bus]
    | true :: rest => simp [State.busAnswers, bus]
    | false :: rest => exact absurd bus (completes rest)

theorem blankActions_accesses (ps : List Digit) : MakesAccesses ps.length (blankActions ps) := by
  rw [blankActions, List.map_eq_flatMap]
  exact .flatMap (fun p => put_accesses p fun _ => blank) ps

/-- A read of `BUF` is no access of `G0`, `DLO` or `DHI` and always completes (R70). -/
theorem bufRead_accesses (a : BufAddr) : MakesAccesses 0 [bufRead a] := by
  intro s t h
  rw [runAll_single] at h
  cases h
  exact ⟨busAnswers_zero s, rfl⟩

theorem charActions_accesses (a : BufAddr) (p : Digit) : MakesAccesses 1 (charActions a p) :=
  (bufRead_accesses a).append (put_accesses p fun s => encodeChar s.cfg (s.buf.read a))

theorem resultActions_accesses (base : BufAddr) (len : Len) :
    MakesAccesses (min 6 len.val) (resultActions base len) := by
  rw [← window_length]
  exact .flatMap (fun i => charActions_accesses (resultAddr base i) (resultDigit i)) _

theorem tailActions_accesses (base : BufAddr) (len : Len) : MakesAccesses (min 6 len.val) (tailActions base len) := by
  rw [← window_length]
  exact .flatMap (fun i => charActions_accesses (trailingAddr base len i) i) _

/-- The characters of the window, and with blank fill the blanks that make up the six positions (R143). -/
theorem trailingActions_accesses (fill : Bool) (base : BufAddr) (len : Len) :
    MakesAccesses (if len.val = 0 ∨ fill = true then 6 else min 6 len.val) (trailingActions fill base len) := by
  unfold trailingActions
  by_cases empty : len.val = 0
  · rw [if_pos empty, if_pos (.inl empty)]
    exact blankActions_accesses digits
  · rw [if_neg empty]
    cases fill with
    | false => simpa [empty] using tailActions_accesses base len
    | true =>
      have six : min 6 len.val + (digits.drop (window len)).length = 6 := by
        simp only [digits, window, List.length_drop, List.length_cons, List.length_nil]
        omega
      rw [if_pos (.inr rfl), ← six]
      exact (tailActions_accesses base len).append (blankActions_accesses _)

theorem writeActions_accesses (ch : CharCode) {pos : Pos} (inRange : pos.val ≤ 5) :
    MakesAccesses 1 (writeActions ch pos) := by
  rw [writeActions, dif_pos inRange]
  exact put_accesses _ fun s => encodeChar s.cfg ch

/-! ### The hang at the first of them that never completes -/

/-- Where not all of the next `n` accesses complete, the first that does not is one of the `n`. -/
theorem first_hang_lt {s : State} {n k : Nat} {rest : List Bool} (unanswered : s.busAnswers n = false)
    (bus : s.bus = List.replicate k true ++ false :: rest) : k < n := by
  by_contra beyond
  have answered : s.busAnswers n = true := by
    rw [State.busAnswers, bus, List.take_append_of_le_length (by simpa using beyond), List.take_replicate]
    simp
  exact absurd answered (by simp [unanswered])

/-- `t` is where an operation hangs that began in `s`, at one of its `n` accesses: it has answered nothing, recorded no
fault and used up the accesses that completed and the one that never does (R70). -/
def HangsWithin (n : Nat) (s t : State) : Prop :=
  t.hung = true ∧ t.responses = s.responses ∧ t.fault = false ∧
    ∃ k, k < n ∧ s.bus = List.replicate k true ++ false :: t.bus

/-- An operation that makes `n` accesses, not all of which complete, hangs at the first that does not. -/
theorem exec_hangs_of_unanswered {i : Instr} {s : State} {n : Nat} (domain : i.inDomain = true)
    (accesses : MakesAccesses n (actions i s)) (running : s.fault = false) (unanswered : s.busAnswers n = false) :
    ∃ t, exec i s = .next t ∧ HangsWithin n s t := by
  obtain ⟨t, h⟩ := exec_answers i s
  refine ⟨t, h, ?_⟩
  rcases exec_actions running domain h with ⟨u, _, run, -⟩ | ⟨u, run, rfl⟩
  · exact absurd (accesses s u run).1 (by simp [unanswered])
  · have follows : Reaches s (runAll (actions i s) s) := Reaches.sequence _ s (actions_reach i s)
    rw [run] at follows
    obtain ⟨k, bus⟩ := follows.bus
    exact ⟨rfl, follows.responses, follows.fault.trans running, k, first_hang_lt unanswered bus, bus⟩

/-- Settles O44, operation by operation with the accesses that its actions make. -/
theorem displayHangsOnAnUnansweredAccess : Obligations.DisplayHangsOnAnUnansweredAccess := by
  intro ch pos base len i n s op running unanswered
  simp only [List.mem_cons, List.not_mem_nil, or_false, Prod.mk.injEq] at op
  rcases op with ⟨rfl, rfl⟩ | ⟨rfl, rfl⟩ | ⟨rfl, rfl⟩ | ⟨rfl, rfl⟩
  · by_cases inRange : pos.val ≤ 5
    · rw [if_pos inRange] at unanswered ⊢
      exact exec_hangs_of_unanswered (by simp [Instr.inDomain, inRange]) (writeActions_accesses ch inRange) running
        unanswered
    · rw [if_neg inRange, busAnswers_zero] at unanswered
      cases unanswered
  · exact exec_hangs_of_unanswered rfl (blankActions_accesses digits) running unanswered
  · exact exec_hangs_of_unanswered rfl (trailingActions_accesses s.cfg.trailingBlankFill base len) running unanswered
  · exact exec_hangs_of_unanswered rfl (resultActions_accesses base len) running unanswered

end Sys2Proof.Machine
end

section
/-! PROOFS of the encoding statements (30_encoding.md): decoder, encoder and the table of R90 (R82 to R91), the command
port (R80, R88), the identities between operations (R95), the bounds on a trace (R96), a host without `WRITE_AT` (R97). -/

namespace Sys2Proof

/-! ### The decoder and the encoder -/

/-- Settles O1, by the fields read back from the word of each format. -/
theorem decodeOfEncodeIsTheOperation : Obligations.DecodeOfEncodeIsTheOperation := decode_encode

/-- Settles O2, by the word put together again from the fields its format reads. -/
theorem encodeOfDecodeIsTheWord : Obligations.EncodeOfDecodeIsTheWord := fun _ _ => encode_of_decode

/-- Settles O5: eight closed instances. -/
theorem exampleWordsDecode : Obligations.ExampleWordsDecode := by
  unfold Obligations.ExampleWordsDecode
  decide

theorem encode_injective : Function.Injective encode := by
  intro i j same
  have decoded : (Except.ok i : Except Reserved Instr) = .ok j := by rw [← decode_encode i, same, decode_encode]
  exact Except.ok.inj decoded

/-! ### The table of R90: masking a word and reading its fields -/

/-- The opcode of a word is untouched by a mask whose opcode bits are all set. -/
theorem opField_masked {w mask : Word} {op : BitVec 4} (full : opField mask = BitVec.allOnes 4)
    (masked : w &&& mask = wordN op) : opField w = op := by
  have opcode : opField (w &&& mask) = opField w &&& opField mask := BitVec.extractLsb'_and
  rw [← opField_wordN op, ← masked, opcode, full, BitVec.and_allOnes]

/-- A field that a mask covers is 0 where the masked word is an opcode and zeros. -/
theorem zeroField_masked {w mask : Word} {op : BitVec 4} {low len : Nat} (below : low + len ≤ 28)
    (full : mask.extractLsb' low len = BitVec.allOnes len) (masked : w &&& mask = wordN op) :
    w.extractLsb' low len = 0#len := by
  have zeros : (wordN op).extractLsb' low len = 0#len := by
    unfold wordN
    rw [BitVec.extractLsb'_append_eq_of_add_le below]
    simp
  have field : (w &&& mask).extractLsb' low len = w.extractLsb' low len &&& mask.extractLsb' low len :=
    BitVec.extractLsb'_and
  rw [← zeros, ← masked, field, full, BitVec.and_allOnes]

/-- A word under the mask of its format, which leaves the opcode: it is put together again from its operands. -/
theorem wordN_of_masked {w : Word} {op : BitVec 4} (h : w &&& 0xFFFFFFFF#32 = wordN op) : wordN op = w :=
  opField_masked (by decide) h ▸ wordN_fields w (zeroField_masked (by decide) (by decide) h)

theorem wordK_of_masked {w : Word} {op : BitVec 4} (h : w &&& 0xFFFFFFF0#32 = wordN op) :
    wordK op (rowField w) (colField w) = w :=
  opField_masked (by decide) h ▸ wordK_fields w (zeroField_masked (by decide) (by decide) h)

theorem wordC_of_masked {w : Word} {op : BitVec 4} (h : w &&& 0xFFFFFF00#32 = wordN op) : wordC op (chField w) = w :=
  opField_masked (by decide) h ▸ wordC_fields w (zeroField_masked (by decide) (by decide) h)

theorem wordP_of_masked {w : Word} {op : BitVec 4} (h : w &&& 0xFFFFF800#32 = wordN op) :
    wordP op (posField w) (chField w) = w :=
  opField_masked (by decide) h ▸ wordP_fields w (zeroField_masked (by decide) (by decide) h)

theorem wordB_of_masked {w : Word} {op : BitVec 4} (h : w &&& 0xF0000000#32 = wordN op) :
    wordB op (lenField w) (baseField w) = w :=
  wordB_of_fields (opField_masked (by decide) h)

/-- Every word that a row of the table covers is the word of an operation that bears the row's mnemonic. -/
def CommandRow.CoversOnlyItsOperations (row : CommandRow) : Prop :=
  ∀ w, row.covers w = true → ∃ i : Instr, i.mnemonic = row.mnemonic ∧ encode i = w

theorem commandTable_covers_only : ∀ row ∈ commandTable, row.CoversOnlyItsOperations := by
  simp only [commandTable, List.forall_mem_cons, CommandRow.CoversOnlyItsOperations, CommandRow.covers, beq_iff_eq]
  exact ⟨fun w h => ⟨.scan, rfl, wordN_of_masked h⟩,
    fun w h => ⟨.isPressed _ _, rfl, wordK_of_masked h⟩,
    fun w h => ⟨.justPressed _ _, rfl, wordK_of_masked h⟩,
    fun w h => ⟨.justReleased _ _, rfl, wordK_of_masked h⟩,
    fun w h => ⟨.encode _, rfl, wordC_of_masked h⟩,
    fun w h => ⟨.writeAt _ _, rfl, wordP_of_masked h⟩,
    fun w h => ⟨.clearAll, rfl, wordN_of_masked h⟩,
    fun w h => ⟨.renderTrailing _ _, rfl, wordB_of_masked h⟩,
    fun w h => ⟨.renderResult _ _, rfl, wordB_of_masked h⟩,
    fun w h => ⟨.sample, rfl, wordN_of_masked h⟩,
    by simp⟩

theorem encode_covered (i : Instr) : Laws.TableRow.Statement i := by
  cases i with
  | scan => exact Laws.TableRow.scan
  | isPressed row col => exact Laws.TableRow.isPressed row col
  | justPressed row col => exact Laws.TableRow.justPressed row col
  | justReleased row col => exact Laws.TableRow.justReleased row col
  | encode ch => exact Laws.TableRow.encode ch
  | writeAt ch pos => exact Laws.TableRow.writeAt ch pos
  | clearAll => exact Laws.TableRow.clearAll
  | renderTrailing base len => exact Laws.TableRow.renderTrailing base len
  | renderResult base len => exact Laws.TableRow.renderResult base len
  | sample => exact Laws.TableRow.sample

/-- The table has one row for each operation of R82. -/
theorem commandTable_row_unique : ∀ a ∈ commandTable, ∀ b ∈ commandTable, a.mnemonic = b.mnemonic → a = b := by
  decide

theorem commandTable_filter_mnemonic (m : Mnemonic) :
    (commandTable.filter (·.mnemonic == m)).map (·.mnemonic) = [m] := by
  cases m <;> rfl

/-- The rows that cover the word of an operation are those with its mnemonic. -/
theorem covers_encode {row : CommandRow} (mem : row ∈ commandTable) (i : Instr) :
    row.covers (encode i) = (row.mnemonic == i.mnemonic) := by
  rw [Bool.eq_iff_iff, beq_iff_eq]
  constructor
  · intro covers
    obtain ⟨j, mnemonic, word⟩ := commandTable_covers_only row mem _ covers
    rw [← mnemonic, encode_injective word]
  · intro mnemonic
    obtain ⟨own, ownMem, ownMnemonic, covers⟩ := encode_covered i
    rwa [commandTable_row_unique row mem own ownMem (mnemonic.trans ownMnemonic.symm)]

/-- Settles O3: a word that decodes is the word of its operation, which one row covers; a word that a row covers is the
word of an operation, and decodes. -/
theorem decoderAgreesWithMaskMatchTable : Obligations.DecoderAgreesWithMaskMatchTable := by
  intro w
  match dec : decode w with
  | .ok i =>
    rw [← encode_of_decode dec, List.filter_congr fun row mem => covers_encode mem i]
    exact commandTable_filter_mnemonic i.mnemonic
  | .error e =>
    have none : commandTable.filter (·.covers w) = [] := by
      rw [List.filter_eq_nil_iff]
      intro row mem covers
      obtain ⟨i, -, word⟩ := commandTable_covers_only row mem w covers
      rw [← word, decode_encode] at dec
      cases dec
    rw [none, List.map_nil]

/-! ### The reserved words -/

section
variable (w : Word) (i : Instr)

/-- A format refuses exactly the words with a non-zero bit in its zero field (R91(b)). -/
theorem formatN_refuses : (∃ e, formatN w i = .error e) ↔ w.extractLsb' 0 28 ≠ 0#28 := by
  unfold formatN; split <;> simp [*]

theorem formatK_refuses : (∃ e, formatK w i = .error e) ↔ w.extractLsb' 4 24 ≠ 0#24 := by
  unfold formatK; split <;> simp [*]

theorem formatC_refuses : (∃ e, formatC w i = .error e) ↔ w.extractLsb' 8 20 ≠ 0#20 := by
  unfold formatC; split <;> simp [*]

theorem formatP_refuses : (∃ e, formatP w i = .error e) ↔ w.extractLsb' 11 17 ≠ 0#17 := by
  unfold formatP; split <;> simp [*]

end

/-- The first part of R91, in terms of the opcode. -/
theorem decode_refuses_iff (w : Word) : (∃ e, decode w = .error e) ↔
    (opField w ∈ [0x0#4, 0xB#4, 0xC#4, 0xD#4, 0xE#4, 0xF#4]) ∨
    (opField w ∈ [0x1#4, 0x7#4, 0xA#4] ∧ w.extractLsb' 0 28 ≠ 0#28) ∨
    (opField w ∈ [0x2#4, 0x3#4, 0x4#4] ∧ w.extractLsb' 4 24 ≠ 0#24) ∨
    (opField w = 0x5#4 ∧ w.extractLsb' 8 20 ≠ 0#20) ∨
    (opField w = 0x6#4 ∧ w.extractLsb' 11 17 ≠ 0#17) := by
  unfold decode
  split
  case h_11 op =>
    have reserved : ∀ op : BitVec 4, op ∉ [0x1#4, 0x2#4, 0x3#4, 0x4#4, 0x5#4, 0x6#4, 0x7#4, 0x8#4, 0x9#4, 0xA#4] →
        op ∈ [0x0#4, 0xB#4, 0xC#4, 0xD#4, 0xE#4, 0xF#4] := by decide
    exact iff_of_true ⟨_, rfl⟩ (.inl (reserved _ (by simp_all)))
  all_goals next op => simp [op, formatN_refuses, formatK_refuses, formatC_refuses, formatP_refuses]

end Sys2Proof

namespace Sys2Proof.Machine

/-! ### The command port -/

/-- Settles O6: the block is free for the command, has no fault to refuse it for, and the word is not reserved. -/
theorem stepRunsTheDecodedCommand : Obligations.StepRunsTheDecodedCommand := fun _ _ _ _ => step_runs

/-- A block that runs nothing and is not faulted refuses a reserved word (R91, R172). -/
theorem step_refuses_reserved {s : State} {w : Word} {rest : List Stimulus} (port : s.port = .command w :: rest)
    (idle : s.hung = false) (running : s.fault = false) (reserved : ∃ e, decode w = .error e) :
    step s = .next { s with port := rest, responses := s.responses ++ [0x80020000#32] } := by
  obtain ⟨e, dec⟩ := reserved
  rw [step_command port idle]
  simp [acceptCommand, running, dec, raise_reserved]

/-- Settles O4: the opcode and the zero field decide what is refused; a position of 6 or 7 is encoded, decodes, and
faults in execution. -/
theorem reservedWordsAreExactlyThoseRefused : Obligations.ReservedWordsAreExactlyThoseRefused :=
  ⟨decode_refuses_iff, fun _ _ => decode_encode _, fun _ _ _ => exec_writeAt_out_of_range,
    fun _ _ _ => step_refuses_reserved⟩

/-- A command has been answered once, by a word R88 allows, or hangs without an answer. -/
def AnsweredOnceOrHung (s t : State) : Prop :=
  (t.hung = false ∧ ∃ r, legalResponse r ∧ t.responses = s.responses ++ [r]) ∨
  (t.hung = true ∧ t.responses = s.responses)

theorem exec_answers_once {i : Instr} {s t : State} (idle : s.hung = false) (h : exec i s = .next t) :
    AnsweredOnceOrHung s t := by
  rcases exec_cases h with ⟨-, rfl⟩ | ⟨-, d, u, -, follows, rfl⟩ | ⟨-, u, -, follows, rfl⟩ | ⟨-, _, _, -, -, rfl⟩
  · exact .inl ⟨idle, _, by simp [legalResponse], rfl⟩
  · exact .inl ⟨follows.hung.trans idle, _, .inl ⟨d, rfl⟩, by rw [State.respond_responses, follows.responses]⟩
  · exact .inr ⟨rfl, follows.responses⟩
  · exact .inl ⟨idle, _, by simp [legalResponse], rfl⟩

/-- Settles O18: a refusal is one response, and an operation answers once or hangs. -/
theorem oneResponseForEachCommand : Obligations.OneResponseForEachCommand := by
  intro s t w rest port idle h
  rw [step_command port idle] at h
  rcases acceptCommand_cases h with ⟨-, rfl⟩ | ⟨-, -, rfl⟩ | ⟨-, i, -, run⟩
  · exact ⟨rfl, .inl ⟨idle, _, by simp [legalResponse], rfl⟩⟩
  · exact ⟨rfl, .inl ⟨idle, _, by simp [legalResponse], rfl⟩⟩
  · exact ⟨(exec_accepted run).port, exec_answers_once (s := { s with port := rest }) idle run⟩

/-! ### The identities between operations -/

/-- With an empty operand `RENDER_TRAILING` has the body of `CLEAR_ALL` (R143). -/
theorem body_renderTrailing_empty (base : BufAddr) : body (.renderTrailing base 0) = body .clearAll :=
  funext fun s => congrArg thenZero (if_pos rfl : renderTrailing base 0 s = blankDigits digits s)

/-- A character outside the alphabet is shown as blank (R132). -/
theorem encodeChar_outside (cfg : Config) {ch : CharCode} (outside : ch ∉ alphabet) : encodeChar cfg ch = blank := by
  have unlisted : segOf cfg ch = none := by
    rw [segOf, List.lookup_eq_none_iff]
    intro p hp
    have member : p.1 ∈ alphabet := (List.of_mem_zip hp).1
    exact bne_iff_ne.2 fun same => outside (same ▸ member)
  rw [encodeChar, unlisted, Option.getD_none]

/-- `WRITE_AT` on a position 0..5 whose one access completes (R141). -/
theorem exec_writeAt_answered {pos : Pos} {s : State} (ch : CharCode) (inRange : pos.val < 6) (running : s.fault = false)
    (answered : s.busAnswers 1 = true) : exec (.writeAt ch pos) s = .next { s with
      disp := s.disp.set pos.val (encodeChar s.cfg ch)
      bus := s.bus.drop 1
      trace := s.trace ++ [putEvent ⟨pos.val, inRange⟩ (encodeChar s.cfg ch)]
      responses := s.responses ++ [0x00000000#32] } := by
  rw [exec_eq_perform, perform_running _ _ running]
  simp only [body, writeAt_in (Nat.le_of_lt_succ inRange), put_answered _ _ s 0 answered]
  exact congrArg Host.Outcome.next (settle_ok 0#8 _)

/-- Settles O43: one body for the first identity; for the second, the pattern of a character outside the alphabet. -/
theorem emptyTrailingIsClearAndUnknownIsBlank : Obligations.EmptyTrailingIsClearAndUnknownIsBlank := by
  refine ⟨fun base s => ?_, fun ch pos s outside running answered inRange => ?_⟩
  · rw [exec_eq_perform, exec_eq_perform, body_renderTrailing_empty]
  · rw [exec_writeAt_answered ch inRange running answered, encodeChar_outside s.cfg outside]
    rfl

/-! ### The kinds of the events -/

/-- What an event is, whatever it carries (R11). -/
inductive EventKind where
  | rowSel | inRead | dispWrite | bufRead
  deriving DecidableEq

/-- The kind of an event (R54 to R57). -/
def Event.kind : Event → EventKind
  | .rowSel _ => .rowSel
  | .inRead _ => .inRead
  | .dispWrite _ _ _ => .dispWrite
  | .bufRead _ _ => .bufRead

/-- An action makes one event of the kind `k`, or waits for an access that never completes and makes none. -/
def PerformsKind (k : EventKind) (a : Action) : Prop :=
  ∀ s, (∃ e t, a s = .ok t ∧ t.trace = s.trace ++ [e] ∧ e.kind = k) ∨
    ∃ t, a s = .error (.hang t) ∧ t.trace = s.trace

/-- An access, and something done once it completes that records one event. -/
theorem PerformsKind.of_access {k : EventKind} {a : Action} {f : State → State → State}
    (access : ∀ s, a s = busAccess s >>= fun t => .ok (f s t))
    (records : ∀ s t, ∃ e, (f s t).trace = t.trace ++ [e] ∧ e.kind = k) : PerformsKind k a := by
  intro s
  rw [access]
  rcases busAccess_cases s with ok | ⟨rest, -, hang⟩
  · rw [ok]
    obtain ⟨e, trace, kind⟩ := records s { s with bus := s.bus.drop 1 }
    exact .inl ⟨e, _, rfl, trace, kind⟩
  · rw [hang]
    exact .inr ⟨_, rfl, rfl⟩

theorem rowWrite_kind (v : State → Word) : PerformsKind .rowSel fun s => rowWrite (v s) s :=
  .of_access (fun _ => rfl) fun s _ => ⟨.rowSel ((v s).extractLsb' 0 4), rfl, rfl⟩

theorem put_kind (p : Digit) (v : State → Pattern) : PerformsKind .dispWrite fun s => put p (v s) s :=
  .of_access (f := fun s t => (t.setLatch p (v s)).record (putEvent p (v s)))
    (fun s => bind_congr fun t => by rw [latchAt_routed]; rfl) fun s _ => ⟨putEvent p (v s), rfl, rfl⟩

theorem bufRead_kind (a : BufAddr) : PerformsKind .bufRead (bufRead a) :=
  fun s => .inl ⟨.bufRead a (s.buf.read a), _, rfl, rfl, rfl⟩

/-- A read of the pins, and something done with the word that records nothing. -/
theorem inputRead_kind {f : Word → State → State} (silent : ∀ w s, (f w s).trace = s.trace) :
    PerformsKind .inRead fun s => inputRead s >>= fun p => .ok (f p.1 p.2) :=
  .of_access (f := fun _ t => f (nextInput t).1 ((nextInput t).2.record (.inRead (nextInput t).1)))
    (fun s => by rw [inputRead, bind_assoc]; rfl) fun _ t => by
      rw [nextInput_eq]
      exact ⟨.inRead (t.upcoming 0), silent _ _, rfl⟩

/-! ### The kinds of the events of an operation, in their order -/

/-- `l` is a sequence of actions of the kinds `ks`, one for one. -/
abbrev PerformKinds (ks : List EventKind) (l : List Action) : Prop := List.Forall₂ PerformsKind ks l

theorem PerformKinds.flatMap {α : Type} {ks : List EventKind} {f : α → List Action} (each : ∀ x, PerformKinds ks (f x))
    (l : List α) : PerformKinds (l.flatMap fun _ => ks) (l.flatMap f) := by
  induction l with
  | nil => exact .nil
  | cons x l ih => exact List.rel_append (each x) ih

/-- A row of a scan: select, read, release (R112). -/
def rowKinds : List EventKind := [.rowSel, .inRead, .rowSel]

/-- A character: read from `BUF`, then shown (R143, R144). -/
def charKinds : List EventKind := [.bufRead, .dispWrite]

/-- A blank position (R142). -/
def blankKinds : List EventKind := [.dispWrite]

theorem rowActions_kinds (r : Row) : PerformKinds rowKinds (rowActions r) :=
  .cons (rowWrite_kind fun s => s.cfg.rowPat[r].setWidth 32) <|
    .cons (inputRead_kind fun _ _ => rfl) <| .cons (rowWrite_kind fun _ => 0#32) .nil

theorem charActions_kinds (a : BufAddr) (p : Digit) : PerformKinds charKinds (charActions a p) :=
  .cons (bufRead_kind a) (.cons (put_kind p _) .nil)

theorem blankActions_kinds (ps : List Digit) : PerformKinds (ps.flatMap fun _ => blankKinds) (blankActions ps) := by
  rw [blankActions, List.map_eq_flatMap]
  exact .flatMap (fun p => .cons (put_kind p fun _ => blank) .nil) ps

/-- The kinds of the actions of `RENDER_TRAILING` with `n` characters in its window (R143). -/
def trailingKinds (fill : Bool) (n : Nat) : List EventKind :=
  if n = 0 then digits.flatMap fun _ => blankKinds
  else ((digits.take n).flatMap fun _ => charKinds) ++
    if fill then (digits.drop n).flatMap fun _ => blankKinds else []

/-- The kinds of the actions of an operation. -/
def actionKinds (i : Instr) (s : State) : List EventKind :=
  match i with
  | .scan => rows.flatMap fun _ => rowKinds
  | .isPressed _ _ => []
  | .justPressed _ _ => []
  | .justReleased _ _ => []
  | .encode _ => []
  | .writeAt _ pos => if pos.val ≤ 5 then blankKinds else []
  | .clearAll => digits.flatMap fun _ => blankKinds
  | .renderTrailing _ len => trailingKinds s.cfg.trailingBlankFill (window len)
  | .renderResult _ len => (digits.take (window len)).flatMap fun _ => charKinds
  | .sample => [.inRead]

theorem trailingActions_kinds (fill : Bool) (base : BufAddr) (len : Len) :
    PerformKinds (trailingKinds fill (window len)) (trailingActions fill base len) := by
  have empty : window len = 0 ↔ len.val = 0 := by simp [window]
  unfold trailingKinds trailingActions
  simp only [empty]
  split
  · exact blankActions_kinds digits
  · refine List.rel_append (PerformKinds.flatMap (fun i => charActions_kinds (trailingAddr base len i) i) _) ?_
    split
    · exact blankActions_kinds _
    · exact .nil

theorem writeActions_kinds (ch : CharCode) (pos : Pos) :
    PerformKinds (if pos.val ≤ 5 then blankKinds else []) (writeActions ch pos) := by
  unfold writeActions
  split
  · exact .cons (put_kind _ fun s => encodeChar s.cfg ch) .nil
  · exact .nil

theorem actions_kinds (i : Instr) (s : State) : PerformKinds (actionKinds i s) (actions i s) := by
  cases i with
  | scan => exact .flatMap rowActions_kinds rows
  | isPressed | justPressed | justReleased | encode => exact .nil
  | writeAt ch pos => exact writeActions_kinds ch pos
  | clearAll => exact blankActions_kinds digits
  | renderTrailing base len => exact trailingActions_kinds _ base len
  | renderResult base len => exact .flatMap (fun i => charActions_kinds (resultAddr base i) (resultDigit i)) _
  | sample => exact .cons (inputRead_kind (f := fun _ s => s) fun _ _ => rfl) .nil

/-- `t` comes after `s` by events whose kinds begin the list `ks`. -/
def TracesInitial (ks : List EventKind) (s t : State) : Prop :=
  ∃ events, t.trace = s.trace ++ events ∧ events.map Event.kind <+: ks

theorem TracesInitial.none {ks : List EventKind} {s t : State} (silent : t.trace = s.trace) : TracesInitial ks s t :=
  ⟨[], by simp [silent], by simp⟩

theorem TracesInitial.cons {k : EventKind} {ks : List EventKind} {e : Event} {s t u : State} (kind : e.kind = k)
    (first : t.trace = s.trace ++ [e]) (later : TracesInitial ks t u) : TracesInitial (k :: ks) s u := by
  obtain ⟨events, trace, kinds⟩ := later
  exact ⟨e :: events, by simp [trace, first], by simpa [kind] using kinds⟩

/-- Actions of given kinds, whether they all complete or one never does, make events of the first of these kinds. -/
theorem PerformKinds.tracesInitial {ks : List EventKind} {l : List Action} (kinds : PerformKinds ks l) :
    ∀ s t, runAll l s = .ok t ∨ runAll l s = .error (.hang t) → TracesInitial ks s t := by
  induction kinds with
  | nil =>
    intro s t run
    rw [runAll_nil] at run
    rcases run with run | run <;> cases run
    exact .none rfl
  | @cons k a ks l performs _ ih =>
    intro s t run
    rw [runAll_cons] at run
    rcases performs s with ⟨e, u, ok, trace, kind⟩ | ⟨u, hang, silent⟩
    · rw [ok, Stop.ok_bind] at run
      exact .cons kind trace (ih u t run)
    · rw [hang, Stop.error_bind] at run
      rcases run with run | run <;> cases run
      exact .none silent

/-- Outside its stated domain an operation is a `WRITE_AT` with a position past 5 (R212). -/
theorem inDomain_eq_false {i : Instr} (outside : i.inDomain = false) :
    ∃ ch pos, i = .writeAt ch pos ∧ 5 < pos.val := by
  cases i with
  | writeAt ch pos => exact ⟨ch, pos, rfl, by simpa [Instr.inDomain] using outside⟩
  | scan | isPressed | justPressed | justReleased | encode => cases outside
  | clearAll | renderTrailing | renderResult | sample => cases outside

/-- Whichever way an operation goes, its events are of the first kinds of its actions. -/
theorem exec_tracesInitial {i : Instr} {s t : State} (h : exec i s = .next t) :
    TracesInitial (actionKinds i s) s t := by
  have events := (actions_kinds i s).tracesInitial s
  rcases Bool.eq_false_or_eq_true s.fault with faulted | running
  · rw [exec_eq_perform, perform_faulted _ _ faulted] at h
    cases h
    exact .none rfl
  rcases Bool.eq_false_or_eq_true i.inDomain with inside | outside
  · rcases exec_actions running inside h with ⟨u, d, run, rfl⟩ | ⟨u, run, rfl⟩
    · exact events u (.inl run)
    · exact events u (.inr run)
  · obtain ⟨ch, pos, rfl, past⟩ := inDomain_eq_false outside
    rw [exec_writeAt_out_of_range running past] at h
    cases h
    exact .none rfl

/-! ### The bounds -/

/-- The bounds of R96 on the events of an operation, by their kinds. -/
abbrev WithinBounds (ks : List EventKind) : Prop :=
  ks.length ≤ 12 ∧ ks.count .inRead ≤ 4 ∧ ks.count .dispWrite ≤ 6 ∧ ks.count .bufRead ≤ 6

theorem window_lt (len : Len) : window len < 7 := by
  unfold window
  omega

/-- The scan has twelve actions, a character is a read and a write, and a window has six positions at most. -/
theorem actionKinds_bounded (i : Instr) (s : State) : WithinBounds (actionKinds i s) := by
  have trailing : ∀ n < 7, ∀ fill, WithinBounds (trailingKinds fill n) := by decide
  have result : ∀ n < 7, WithinBounds ((digits.take n).flatMap fun _ => charKinds) := by decide
  cases i with
  | scan | clearAll | sample => simp only [actionKinds]; decide
  | isPressed | justPressed | justReleased | encode => simp only [actionKinds]; decide
  | writeAt ch pos => simp only [actionKinds]; split <;> decide
  | renderTrailing base len => exact trailing _ (window_lt len) _
  | renderResult base len => exact result _ (window_lt len)

theorem WithinBounds.of_initial {ks ls : List EventKind} (bounded : WithinBounds ls) (first : ks <+: ls) :
    WithinBounds ks := by
  obtain ⟨length, reads, writes, fetches⟩ := bounded
  have count (k : EventKind) : ks.count k ≤ ls.count k := first.sublist.count_le k
  exact ⟨first.length_le.trans length, (count _).trans reads, (count _).trans writes, (count _).trans fetches⟩

/-- A test that only events of one kind pass is passed no more often than that kind occurs. -/
theorem countP_le_count_kind {p : Event → Bool} {k : EventKind} (only : ∀ e, p e = true → e.kind = k)
    (events : List Event) : events.countP p ≤ (events.map Event.kind).count k := by
  rw [List.count, List.countP_map]
  exact List.countP_mono_left fun e _ passed => beq_iff_eq.2 (only e passed)

/-- Settles O52: the events are of the first kinds of the actions, whose number is bounded kind by kind. -/
theorem everyTraceIsBounded : Obligations.EveryTraceIsBounded := by
  intro i s t h
  obtain ⟨events, trace, kinds⟩ := exec_tracesInitial h
  obtain ⟨length, reads, writes, fetches⟩ := (actionKinds_bounded i s).of_initial kinds
  refine ⟨events, trace, by simpa using length, (countP_le_count_kind ?_ events).trans reads,
    (countP_le_count_kind ?_ events).trans writes, (countP_le_count_kind ?_ events).trans fetches⟩ <;>
  · intro e passed
    cases e <;> simp_all [Event.kind]

/-! ### A host without `WRITE_AT` -/

/-- What every step keeps holds after any number of steps. -/
theorem run_keeps {P : State → Prop} (keeps : ∀ s t, P s → step s = .next t → P t) :
    ∀ (n : Nat) (s t : State), P s → Host.Core.run Sys2Proof.core n s = .next t → P t := by
  intro n
  induction n with
  | zero =>
    intro s t now h
    cases h
    exact now
  | succ n ih =>
    intro s t now h
    rw [run_succ] at h
    match first : step s, h with
    | .next u, h => exact ih u t (keeps s u now first) h

/-- `FAULT` is 0, and no `WRITE_AT` is to come at the port (R97). -/
def SafeFromFault (s : State) : Prop :=
  s.fault = false ∧ ∀ (ch : CharCode) (pos : Pos), .command (encode (.writeAt ch pos)) ∉ s.port

theorem step_port_subset {s t : State} (h : step s = .next t) : t.port ⊆ s.port := by
  rcases step_port h with same | ⟨x, taken⟩
  · exact same ▸ List.Subset.refl _
  · exact taken ▸ List.subset_cons_self _ _

theorem step_keeps_safeFromFault (s t : State) (safe : SafeFromFault s) (h : step s = .next t) : SafeFromFault t := by
  obtain ⟨running, noWrite⟩ := safe
  refine ⟨Bool.eq_false_iff.2 fun faults => ?_, fun ch pos mem => noWrite ch pos (step_port_subset h mem)⟩
  obtain ⟨-, ch, pos, rest, port, -⟩ := step_sets_fault h running faults
  exact noWrite ch pos (port ▸ List.mem_cons_self)

/-- Settles O57: a step takes from the port at most, and only a `WRITE_AT` taken from it sets `FAULT`. -/
theorem applicationWithoutWriteAtNeverFaults : Obligations.ApplicationWithoutWriteAtNeverFaults := by
  intro n s t running noWrite h
  exact (run_keeps step_keeps_safeFromFault n s t ⟨running, noWrite⟩ h).1

end Sys2Proof.Machine
end

section
/-! PROOFS of the keypad statements (40_keypad_scanner.md): the three queries (R113 to R116), the effect of a scan and of
one that hangs (R112, R118), the row line at every event of it (R119), and the keys it reports (R112(c), 93 U9). -/

namespace Sys2Proof

/-- R84: the fields of the key format at their bit places. -/
theorem wordK_places (op : BitVec 4) (row : Row) (col : Col) :
    wordK op row col = wordN op ||| (BitVec.ofNat 32 row.val <<< 2) ||| BitVec.ofNat 32 col.val := by
  revert op row col
  decide

end Sys2Proof

namespace Sys2Proof.Machine

/-! ### The queries -/

/-- A faulted block refuses every operation (R173). -/
theorem exec_refused (i : Instr) {s : State} (faulted : s.fault = true) :
    exec i s = .next { s with responses := s.responses ++ [0x80030000#32] } := by
  rw [exec_eq_perform, perform_faulted _ _ faulted]

/-- A Boolean result as a response word (R88). -/
theorem boolData_word (b : Bool) : (boolData b).setWidth 32 = if b = true then 1#32 else 0#32 := by
  revert b
  decide

/-- An operation whose body is a Boolean, without an access, answers 1 or 0 and changes nothing else. -/
theorem exec_boolean {i : Instr} {s : State} {b : Bool} (answers : body i s = .ok (boolData b, s))
    (running : s.fault = false) :
    exec i s = .next { s with responses := s.responses ++ [if b = true then 1#32 else 0#32] } := by
  rw [exec_eq_perform, perform_running _ _ running, answers, settle_ok, boolData_word]
  rfl

section
variable {s : State} (row : Row) (col : Col)

theorem justPressed_iff : s.justPressed row col = true ↔ s.cur.cell row col = true ∧ s.prev.cell row col = false := by
  simp [State.justPressed]

theorem justReleased_iff : s.justReleased row col = true ↔ s.cur.cell row col = false ∧ s.prev.cell row col = true := by
  simp [State.justReleased]

theorem exec_isPressed (running : s.fault = false) : exec (.isPressed row col) s =
    .next { s with responses := s.responses ++ [if s.cur.cell row col = true then 1#32 else 0#32] } :=
  exec_boolean rfl running

theorem exec_justPressed (running : s.fault = false) : exec (.justPressed row col) s =
    .next { s with responses := s.responses ++
      [if s.cur.cell row col = true ∧ s.prev.cell row col = false then 1#32 else 0#32] } := by
  simp only [← justPressed_iff]
  exact exec_boolean rfl running

theorem exec_justReleased (running : s.fault = false) : exec (.justReleased row col) s =
    .next { s with responses := s.responses ++
      [if s.cur.cell row col = false ∧ s.prev.cell row col = true then 1#32 else 0#32] } := by
  simp only [← justReleased_iff]
  exact exec_boolean rfl running

end

/-- Settles O24: the answer is the cell of `CUR`, and a faulted block refuses. -/
theorem isPressedAnswersTheCurrentCell : Obligations.IsPressedAnswersTheCurrentCell :=
  fun row col _ => ⟨wordK_places 0x2#4 row col, exec_isPressed row col, exec_refused _⟩

/-- Settles O25: the answer is the press edge, and a faulted block refuses. -/
theorem justPressedAnswersThePressEdge : Obligations.JustPressedAnswersThePressEdge :=
  fun row col _ => ⟨wordK_places 0x3#4 row col, exec_justPressed row col, exec_refused _⟩

/-- Settles O26: the answer is the release edge, and a faulted block refuses. -/
theorem justReleasedAnswersTheReleaseEdge : Obligations.JustReleasedAnswersTheReleaseEdge :=
  fun row col _ => ⟨wordK_places 0x4#4 row col, exec_justReleased row col, exec_refused _⟩

/-- Settles O27: the three answers, by the four values of the pair (`PREV`, `CUR`). -/
theorem edgeAnswersFollowTheTable : Obligations.EdgeAnswersFollowTheTable := by
  intro row col s running
  refine ⟨_, _, _, exec_isPressed row col running, exec_justPressed row col running,
    exec_justReleased row col running, ?_⟩
  cases s.prev.cell row col <;> cases s.cur.cell row col <;> rfl

/-! ### The effect of a scan -/

/-- Settles O22: the rows are sampled in turn, or an access never completes. -/
theorem scanSamplesEveryRow : Obligations.ScanSamplesEveryRow := by
  refine ⟨rfl, fun s => ⟨fun running bus => ?_, exec_refused .scan, fun running bus => ?_⟩⟩
  · rw [exec_scan_answered running bus, ← scanTrace_eq]
    rfl
  · obtain ⟨_, _, u, -, scanned, hangs⟩ := exec_scan_hangs running bus
    exact ⟨_, hangs, rfl, scanned.responses⟩

/-- A scan hangs at the first access that never completes, with the rows done that were read before (R70, R118). -/
theorem exec_scan_hangs_at {s : State} {k : Nat} {rest : List Bool} (running : s.fault = false) (within : k < 12)
    (bus : s.bus = List.replicate k true ++ false :: rest) :
    ∃ u, exec .scan s = .next { u with hung := true } ∧ Scanned s u k rest := by
  obtain ⟨u, hangs, scanned⟩ := scan_hang s within bus
  refine ⟨u, ?_, scanned⟩
  rw [exec_eq_perform, perform_running _ _ running]
  simp only [body, hangs]
  rfl

/-- Settles O23: what `Scanned` says of the state in which the scan hangs. -/
theorem hungScanLeavesRowsSampledSoFar : Obligations.HungScanLeavesRowsSampledSoFar := by
  intro s k rest running within bus
  obtain ⟨u, hangs, scanned⟩ := exec_scan_hangs_at running within bus
  exact ⟨_, hangs, rfl, scanned.responses, scanned.trace, scanned.disp, scanned.fault.trans running, scanned.bus,
    fun r c => ⟨scanned.prev r c, scanned.cur r c⟩⟩

/-! ### The row line at every event of a scan -/

/-- The events of a scan of `s` all of whose accesses complete (R112). -/
abbrev scanEvents (s : State) : List Event := scanTrace s.cfg fun r => s.upcoming r.val

/-- Between the events of a scan: before the first, or after the select, the read or the release of some row. -/
theorem scan_point_cases {n : Nat} (within : n ≤ 12) :
    n = 0 ∨ ∃ r : Row, n = 3 * r.val + 1 ∨ n = 3 * r.val + 2 ∨ n = 3 * r.val + 3 := by
  rcases Nat.eq_zero_or_pos n with first | later
  · exact .inl first
  · refine .inr ⟨⟨(n - 1) / 3, by omega⟩, ?_⟩
    dsimp only
    omega

/-- `ROWSEL` through row `r` of a scan: the row's line from its select to its release (R112, R207). -/
theorem scanEvents_rowsel (s : State) (v : Nibble) (r : Row) :
    replayRowsel v ((scanEvents s).take (3 * r.val + 1)) = s.cfg.rowPat[r] ∧
    replayRowsel v ((scanEvents s).take (3 * r.val + 2)) = s.cfg.rowPat[r] ∧
    replayRowsel v ((scanEvents s).take (3 * r.val + 3)) = 0#4 := by
  obtain ⟨selected, read, released⟩ := scanTrace_take s r
  rw [selected, read, released]
  simp only [replayRowsel_append]
  exact ⟨rfl, rfl, rfl⟩

/-- The events through row `r` of a scan, one by one; after its release comes no read. -/
theorem scanEvents_getElem? (s : State) (r : Row) :
    (scanEvents s)[3 * r.val + 1]? = some (.inRead (s.upcoming r.val)) ∧
    (scanEvents s)[3 * r.val + 2]? = some (.rowSel 0#4) ∧
    ∀ w, (scanEvents s)[3 * r.val + 3]? ≠ some (.inRead w) := by
  simp only [scanEvents, scanTrace_eq]
  fin_cases r <;> simp

/-- Once row `r` is selected, the rows before it have been read. -/
theorem countReads_scanEvents (s : State) (r : Row) : countReads ((scanEvents s).take (3 * r.val + 1)) = r.val := by
  simp only [scanEvents, scanTrace_eq]
  fin_cases r <;> rfl

/-- Whichever way a scan goes, its events are the first of the twelve. -/
theorem exec_scan_events {s t : State} (h : exec .scan s = .next t) :
    ∃ events, t.trace = s.trace ++ events ∧ events <+: scanEvents s := by
  rcases exec_scan_cases h with ⟨-, rfl⟩ | ⟨-, -, rfl⟩ | ⟨-, -, k, _, u, -, scanned, rfl⟩
  · exact ⟨[], (List.append_nil _).symm, List.nil_prefix⟩
  · exact ⟨scanEvents s, rfl, List.prefix_rfl⟩
  · exact ⟨_, scanned.trace, List.take_prefix k _⟩

theorem rowPat_isOneHot_of_wf {cfg : Config} (wf : cfg.wf = true) (r : Row) :
    Nibble.isOneHot cfg.rowPat[r] = true := by
  simp only [Config.wf, Bool.and_eq_true, List.all_eq_true] at wf
  obtain ⟨⟨⟨⟨⟨⟨oneHot, -⟩, -⟩, -⟩, -⟩, -⟩, -⟩ := wf
  exact oneHot _ (Vector.mem_toList_iff.2 (Vector.getElem_mem r.isLt))

/-- Where a part of some events divides: the first piece is that many of them, and what follows it is the next. -/
theorem point_of_prefix {events done todo : List Event} (first : done ++ todo <+: events) :
    done.length ≤ events.length ∧ done = events.take done.length ∧
      ∀ e rest, todo = e :: rest → events[done.length]? = some e := by
  have begins : done <+: events := (List.prefix_append done todo).trans first
  refine ⟨begins.length_le, List.prefix_iff_eq_take.1 begins, ?_⟩
  rintro e rest rfl
  obtain ⟨later, rfl⟩ := first
  simp

/-- Settles O30: at each point of the scan after its first event the row being filled is selected, is read, or has just
been released. -/
theorem neverTwoRowLinesAsserted : Obligations.NeverTwoRowLinesAsserted := by
  intro s t wf h done todo trace started
  obtain ⟨events, made, first⟩ := exec_scan_events h
  obtain rfl : events = done ++ todo := by
    rw [made, List.append_assoc] at trace
    exact List.append_cancel_left trace
  obtain ⟨within, done_eq, next_eq⟩ := point_of_prefix first
  rw [scanTrace_length] at within
  rcases scan_point_cases within with unstarted | ⟨r, point⟩
  · exact absurd (List.length_eq_zero_iff.1 unstarted) started
  obtain ⟨whenSelected, whenRead, whenReleased⟩ := scanEvents_rowsel s s.rowsel r
  obtain ⟨afterSelect, afterRead, afterRelease⟩ := scanEvents_getElem? s r
  have oneHot := rowPat_isOneHot_of_wf wf r
  have reads := countReads_scanEvents s r
  rcases point with selected | read | released
  · rw [selected] at done_eq next_eq
    rw [← done_eq] at whenSelected reads
    rw [whenSelected]
    refine ⟨.inr oneHot, fun _ _ _ => ⟨r, reads.symm, rfl, oneHot⟩, fun v rest next _ => ?_⟩
    exact absurd (afterSelect.symm.trans (next_eq _ _ next)) (by simp)
  · rw [read] at done_eq next_eq
    rw [← done_eq] at whenRead
    rw [whenRead]
    refine ⟨.inr oneHot, fun w rest next => ?_, fun v rest next selects => ?_⟩
    · exact absurd (afterRead.symm.trans (next_eq _ _ next)) (by simp)
    · exact absurd (afterRead.symm.trans (next_eq _ _ next)) (by simpa using selects.symm)
  · rw [released] at done_eq next_eq
    rw [← done_eq] at whenReleased
    exact ⟨.inl whenReleased, fun w rest next => absurd (next_eq _ _ next) (afterRelease w), fun _ _ _ _ => whenReleased⟩

/-! ### What a scan makes of its draws -/

/-- Words that agree in bits 8:5 agree in the bit of every column (R32). -/
theorem column_eq_of_masked {w v : Word} (same : w &&& 0x000001E0#32 = v &&& 0x000001E0#32) (c : Col) :
    w.getLsbD (5 + c.val) = v.getLsbD (5 + c.val) := by
  have inMask : ∀ c : Col, (0x000001E0#32).getLsbD (5 + c.val) = true := by decide
  have bit := congrArg (·.getLsbD (5 + c.val)) same
  simpa only [BitVec.getLsbD_and, inMask c, Bool.and_true] using bit

/-- The words read do not matter for what a scan writes to `ROWSEL`. -/
theorem scanEvents_rowsel_congr {s s' : State} (cfg : s'.cfg = s.cfg) (v : Nibble) {k : Nat} (within : k ≤ 12) :
    replayRowsel v ((scanEvents s').take k) = replayRowsel v ((scanEvents s).take k) := by
  rcases scan_point_cases within with rfl | ⟨r, point⟩
  · rfl
  · obtain ⟨selected, read, released⟩ := scanEvents_rowsel s v r
    obtain ⟨selected', read', released'⟩ := scanEvents_rowsel s' v r
    rw [cfg] at selected' read'
    rcases point with rfl | rfl | rfl
    · exact selected'.trans selected.symm
    · exact read'.trans read.symm
    · exact released'.trans released.symm

/-- `ROWSEL` after an operation is what its events make of it (R11). -/
theorem exec_rowsel {i : Instr} {s t : State} {events : List Event} (h : exec i s = .next t)
    (trace : t.trace = s.trace ++ events) : t.rowsel = replayRowsel s.rowsel events := by
  obtain ⟨_, made, rowsel, -⟩ := traceRealisesTheEffect i s t h
  rw [rowsel, List.append_cancel_left (made.symm.trans trace)]

/-- Settles O31: both scans are refused, both complete, or both hang at the same access. -/
theorem scanIgnoresBitsOutsideColumnField : Obligations.ScanIgnoresBitsOutsideColumnField := by
  intro s t u ws vs agree first second
  have columns (r : Row) := column_eq_of_masked (agree r)
  rcases Bool.eq_false_or_eq_true s.fault with faulted | running
  · rw [exec_refused (s := { s with inputs := ws }) .scan faulted] at first
    rw [exec_refused (s := { s with inputs := vs }) .scan faulted] at second
    cases first
    cases second
    exact ⟨rfl, rfl, rfl, rfl⟩
  rcases Bool.eq_false_or_eq_true (s.busAnswers 12) with bus | bus
  · rw [exec_scan_answered (s := { s with inputs := ws }) running bus] at first
    rw [exec_scan_answered (s := { s with inputs := vs }) running bus] at second
    cases first
    cases second
    exact ⟨congrArg Grid.ofFn (funext₂ columns), rfl, rfl, rfl⟩
  · obtain ⟨k, rest, within, stalls⟩ := first_hang s.bus 12 bus
    obtain ⟨x, hangs, scanned⟩ := exec_scan_hangs_at (s := { s with inputs := ws }) running within stalls
    obtain ⟨y, hangs', scanned'⟩ := exec_scan_hangs_at (s := { s with inputs := vs }) running within stalls
    cases first.symm.trans hangs
    cases second.symm.trans hangs'
    refine ⟨Grid.ext_cell fun r c => ?_, Grid.ext_cell fun r c => ?_, ?_, ?_⟩
    · rw [scanned.cur, scanned'.cur, columns]
    · rw [scanned.prev, scanned'.prev]
    · rw [exec_rowsel first scanned.trace, exec_rowsel second scanned'.trace]
      exact scanEvents_rowsel_congr (s := { s with inputs := vs }) (s' := { s with inputs := ws }) rfl s.rowsel within.le
    · exact scanned.responses.trans scanned'.responses.symm

/-- The read of row `r` among the events of a scan. -/
theorem scanEvents_split_at_read (s : State) (r : Row) : scanEvents s =
    (scanEvents s).take (3 * r.val + 1) ++ .inRead (s.upcoming r.val) :: (scanEvents s).drop (3 * r.val + 2) := by
  obtain ⟨read, -⟩ := scanEvents_getElem? s r
  obtain ⟨inside, word⟩ := List.getElem?_eq_some_iff.1 read
  rw [← word, List.getElem_cons_drop, List.take_append_drop]

/-- Settles O33: row `r` is read with its line asserted, and filled from that read. -/
theorem idealKeypadIsReportedByScan : Obligations.IdealKeypadIsReportedByScan := by
  intro K s t running bus h ideal
  rw [exec_scan_answered running bus] at h
  cases h
  have held (r : Row) (c : Col) : ((afterScan s).respond 0#32).cur.cell r c = (K (3 * r.val + 1)).cell r c := by
    have read := ideal ((scanEvents s).take (3 * r.val + 1)) ((scanEvents s).drop (3 * r.val + 2)) (s.upcoming r.val) r
      (by rw [List.append_assoc, ← scanEvents_split_at_read]; rfl) (scanEvents_rowsel s s.rowsel r).1 c
    rw [List.length_take_of_le (by rw [scanTrace_length]; omega)] at read
    exact (Grid.cell_ofFn _ r c).trans read
  exact ⟨held, fun stable => Grid.ext_cell fun r c => by rw [held, stable]⟩

end Sys2Proof.Machine
end

section
/-! PROOFS of the encoder statement (41_display_encoder.md): the table of R131 and what `ENCODE` answers (R132). -/

namespace Sys2Proof

/-- R85: the field of the character format at its bit place. -/
theorem wordC_places (op : BitVec 4) (ch : CharCode) : wordC op ch = wordN op ||| ch.setWidth 32 := by
  have opcode : wordN op = (op ++ 0#20 ++ 0#8 : BitVec 32) := by revert op; decide
  have character : ch.setWidth 32 = 0#24 ++ ch := BitVec.setWidth_eq_append (by decide)
  rw [opcode, character, BitVec.or_append, BitVec.or_zero, BitVec.zero_or, wordC]

end Sys2Proof

namespace Sys2Proof.Machine

/-- In a table whose keys are distinct, each key is looked up to the value at its own place. -/
theorem lookup_zip_getElem {α β : Type} [BEq α] [LawfulBEq α] {keys : List α} (distinct : keys.Nodup)
    {values : List β} {k : Nat} (inKeys : k < keys.length) (inValues : k < values.length) :
    (keys.zip values).lookup keys[k] = some values[k] := by
  induction keys generalizing values k with
  | nil => cases inKeys
  | cons key keys ih =>
    obtain ⟨fresh, distinct⟩ := List.nodup_cons.1 distinct
    cases values with
    | nil => cases inValues
    | cons value values =>
      cases k with
      | zero => exact List.lookup_cons_self
      | succ k =>
        have within : k < keys.length := Nat.lt_of_succ_lt_succ inKeys
        have other : (keys[k] == key) = false :=
          beq_eq_false_iff_ne.2 fun same => fresh (same ▸ List.getElem_mem within)
        simp only [List.zip_cons_cons, List.lookup_cons, List.getElem_cons_succ, other]
        exact ih distinct within (Nat.lt_of_succ_lt_succ inValues)

theorem alphabet_nodup : alphabet.Nodup := by decide

/-- The `k`-th code of the alphabet is shown by the `k`-th pattern of `SEG` (R131, R132). -/
theorem encodeChar_alphabet (cfg : Config) (k : Fin 23) : encodeChar cfg (alphabet.getD k.val 0#8) = cfg.seg[k] := by
  have inCodes : k.val < alphabet.length := k.isLt
  have inSeg : k.val < cfg.seg.toList.length := by rw [Vector.length_toList]; exact k.isLt
  have listed : segOf cfg alphabet[k.val] = some cfg.seg.toList[k.val] :=
    lookup_zip_getElem alphabet_nodup inCodes inSeg
  rw [List.getD_eq_getElem _ _ inCodes, encodeChar, listed, Option.getD_some, Vector.getElem_toList]
  rfl

/-- `ENCODE` on a block that is not faulted answers the pattern and changes nothing else (R132). -/
theorem exec_encode (ch : CharCode) {s : State} (running : s.fault = false) : exec (.encode ch) s =
    .next { s with responses := s.responses ++ [(encodeChar s.cfg ch).setWidth 32] } := by
  rw [exec_eq_perform, perform_running _ _ running, body, settle_ok]
  rfl

/-- Settles O36: the table on the alphabet, blank outside it, and the word, the answer and the refusal of `ENCODE`. -/
theorem encodeAnswersTheTable : Obligations.EncodeAnswersTheTable :=
  ⟨encodeChar_alphabet, fun cfg _ => encodeChar_outside cfg,
    fun ch _ => ⟨wordC_places 0x5#4 ch, exec_encode ch, exec_refused _⟩⟩

end Sys2Proof.Machine
end

section
/-! PROOFS of the display statements (42_display_driver.md): what each of the four operations shows when its accesses
complete (R141 to R144), what they leave alone whichever way they go (R149), and the latches and row lines as
write-only registers (R148). -/

namespace Sys2Proof

/-- R86: the fields of the position format at their bit places. -/
theorem wordP_places (op : BitVec 4) (pos : Pos) (ch : CharCode) :
    wordP op pos ch = wordN op ||| (BitVec.ofNat 32 pos.val <<< 8) ||| ch.setWidth 32 := by
  have fields : wordN op ||| (BitVec.ofNat 32 pos.val <<< 8) =
      (op ++ 0#17 ++ (BitVec.ofFin pos : BitVec 3) ++ 0#8 : BitVec 32) := by
    revert op pos
    decide
  have character : ch.setWidth 32 = 0#24 ++ ch := BitVec.setWidth_eq_append (by decide)
  rw [fields, character, BitVec.or_append, BitVec.or_zero, BitVec.zero_or, wordP]

end Sys2Proof

namespace Sys2Proof.Machine

/-! ### An operation that ends by answering `0x00`: exactly, and whichever way it goes -/

/-- An operation whose accesses have completed answers `0x00` (R88). -/
theorem exec_zero {i : Instr} {s u : State} (running : s.fault = false) (ends : body i s = thenZero (.ok u)) :
    exec i s = .next (u.respond 0x00000000#32) := by
  rw [exec_eq_perform, perform_running _ _ running, ends]
  exact congrArg Host.Outcome.next (settle_ok 0#8 u)

/-- What the accesses of an operation keep, the operation keeps: refused, answered or hung, it differs from where they
lead in `hung` and the responses alone. -/
theorem exec_endsWithin {R : State → State → Prop} (refl : ∀ s, R s s) {i : Instr} {s t : State}
    {r : Except Stop State} (h : exec i s = .next t) (runs : body i s = thenZero r) (within : EndsWithin R s r) :
    ∃ u hung responses, R s u ∧ t = { u with hung := hung, responses := responses } := by
  rcases Bool.eq_false_or_eq_true s.fault with faulted | running
  · rw [exec_refused i faulted] at h
    cases h
    exact ⟨s, s.hung, _, refl s, rfl⟩
  rw [exec_eq_perform, perform_running _ _ running, runs] at h
  match r, within with
  | .ok u, within =>
    cases h
    exact ⟨u, u.hung, _, within, rfl⟩
  | .error (.hang u), within =>
    cases h
    exact ⟨u, true, u.responses, within, rfl⟩

/-! ### The latches after a sequence of writes -/

/-- Writes to some positions, of a pattern that depends on the position alone, one after another. -/
theorem foldl_set_eq_ofFn {α : Type} (pos : α → Digit) (f : Digit → Pattern) (ps : List α) (d : Vector Pattern 6) :
    ps.foldl (fun (d : Vector Pattern 6) i => d.set (pos i) (f (pos i))) d =
      Vector.ofFn fun q : Digit => if q ∈ ps.map pos then f q else d[q] := by
  induction ps generalizing d with
  | nil => ext q hq; simp
  | cons i ps ih =>
    rw [List.foldl_cons, ih]
    congr 1
    funext q
    by_cases later : q ∈ ps.map pos
    · simp [later]
    · by_cases now : q = pos i
      · simp [now]
      · have other : (pos i).val ≠ q.val := fun same => now (Fin.ext same.symm)
        simp [later, now, other]

theorem mem_digits (q : Digit) : q ∈ digits := by
  revert q
  decide

/-- The window of a text covers the positions below its length (R147). -/
theorem mem_window_iff (len : Len) (q : Digit) : q ∈ digits.take (window len) ↔ q.val < min 6 len.val := by
  have covers : ∀ n < 7, ∀ q : Digit, q ∈ digits.take n ↔ q.val < n := by decide
  exact covers _ (window_lt len) q

theorem mem_rest_iff (len : Len) (q : Digit) : q ∈ digits.drop (window len) ↔ min 6 len.val ≤ q.val := by
  have covers : ∀ n < 7, ∀ q : Digit, q ∈ digits.drop n ↔ n ≤ q.val := by decide
  exact covers _ (window_lt len) q

/-- Counted from position 5 downward, the window covers as many positions (R144). -/
theorem mem_resultDigits_iff (len : Len) (q : Digit) :
    q ∈ (digits.take (window len)).map resultDigit ↔ 5 - q.val < min 6 len.val := by
  have covers : ∀ n < 7, ∀ q : Digit, q ∈ (digits.take n).map resultDigit ↔ 5 - q.val < n := by decide
  exact covers _ (window_lt len) q

/-! ### `WRITE_AT` -/

/-- The display byte of a position, written out (R29). -/
theorem putEvent_eq (p : Digit) (v : Pattern) : putEvent p v =
    if p.val ≤ 3 then .dispWrite .lo (Fin.ofNat 4 p.val) v else .dispWrite .hi (Fin.ofNat 4 (p.val - 4)) v := by
  fin_cases p <;> rfl

/-- Settles O38: the word by its fields; refused, faulted, or the one write to the byte of its position. -/
theorem writeAtWritesOneLatchOrFaults : Obligations.WriteAtWritesOneLatchOrFaults := by
  refine fun ch pos s => ⟨wordP_places 0x6#4 pos ch, exec_refused _, exec_writeAt_out_of_range,
    fun inRange running answered => ?_⟩
  rw [exec_writeAt_answered ch inRange running answered, putEvent_eq]

/-! ### `CLEAR_ALL` -/

/-- All six positions blanked, in their order (R142). -/
theorem blankDigits_all {s : State} (answered : s.busAnswers 6 = true) : blankDigits digits s = .ok { s with
    disp := Vector.replicate 6 blank, bus := s.bus.drop 6, trace := s.trace ++ clearTrace } := by
  have latches : digits.foldl (fun (d : Vector Pattern 6) (p : Digit) => d.set p blank) s.disp =
      Vector.replicate 6 blank := by
    refine (foldl_set_eq_ofFn id (fun _ => blank) digits s.disp).trans ?_
    ext q hq
    simp [mem_digits]
  refine (blankDigits_answered digits s answered).trans ?_
  rw [latches]
  rfl

/-- `CLEAR_ALL` all of whose accesses complete (R142). -/
theorem exec_clearAll_answered {s : State} (running : s.fault = false) (answered : s.busAnswers 6 = true) :
    exec .clearAll s = .next { s with
      disp := Vector.replicate 6 blank
      bus := s.bus.drop 6
      trace := s.trace ++ clearTrace
      responses := s.responses ++ [0x00000000#32] } :=
  exec_zero (i := .clearAll) running (congrArg thenZero (blankDigits_all answered))

/-- Settles O39: six blanks, in the order of the positions. -/
theorem clearAllBlanksEveryPositionInOrder : Obligations.ClearAllBlanksEveryPositionInOrder :=
  ⟨rfl, fun _ => ⟨exec_clearAll_answered, exec_refused .clearAll⟩⟩

/-! ### `RENDER_TRAILING` -/

/-- The positions that `RENDER_TRAILING` blanks after its characters (R143). -/
def filledDigits (fill : Bool) (len : Len) : List Digit := if fill = true then digits.drop (window len) else []

theorem mem_filledDigits_iff (fill : Bool) (len : Len) (q : Digit) :
    q ∈ filledDigits fill len ↔ fill = true ∧ min 6 len.val ≤ q.val := by
  cases fill <;> simp [filledDigits, mem_rest_iff]

/-- Characters and blanks together are the six positions, or the window alone. -/
theorem filledDigits_length (fill : Bool) (len : Len) :
    min 6 len.val + (filledDigits fill len).length = if fill = true then 6 else min 6 len.val := by
  cases fill with
  | false => rfl
  | true =>
    simp only [filledDigits, digits, window, if_true, List.length_drop, List.length_cons, List.length_nil]
    omega

/-- `RENDER_TRAILING` with a character to show: the characters, then the blanks. -/
theorem renderTrailing_nonempty {len : Len} (nonempty : 0 < len.val) (base : BufAddr) (s : State) :
    renderTrailing base len s =
      showTrailing base len s >>= blankDigits (filledDigits s.cfg.trailingBlankFill len) := by
  rw [renderTrailing, if_neg (Nat.ne_of_gt nonempty)]
  refine bind_congr fun t => ?_
  cases s.cfg.trailingBlankFill <;> rfl

/-- Where the next `k + j` accesses complete, the next `k` do. -/
theorem busAnswers_prefix {s : State} {k j : Nat} (answered : s.busAnswers (k + j) = true) : s.busAnswers k = true := by
  rw [State.busAnswers, List.take_add, List.all_append, Bool.and_eq_true] at answered
  exact answered.1

/-- What the latches show after `RENDER_TRAILING` with a character to show (R143). -/
def trailingDisp (fill : Bool) (base : BufAddr) (len : Len) (s : State) : Vector Pattern 6 :=
  Vector.ofFn fun p : Digit =>
    if p.val < min 6 len.val then encodeChar s.cfg (trailingChar s base len p)
    else if fill = true then blank else s.disp[p]

/-- The latches, written by the characters and then by the blanks. -/
theorem foldl_filledDigits (fill : Bool) (base : BufAddr) (len : Len) (s : State) :
    (filledDigits fill len).foldl (fun (d : Vector Pattern 6) (p : Digit) => d.set p blank)
      ((digits.take (window len)).foldl (fun (d : Vector Pattern 6) (i : Digit) =>
        d.set i (encodeChar s.cfg (s.buf.read (trailingAddr base len i)))) s.disp) =
      trailingDisp fill base len s := by
  have characters := foldl_set_eq_ofFn id (fun i => encodeChar s.cfg (s.buf.read (trailingAddr base len i)))
    (digits.take (window len)) s.disp
  simp only [id_eq] at characters
  rw [characters]
  refine (foldl_set_eq_ofFn id (fun _ => blank) (filledDigits fill len) _).trans ?_
  rw [trailingDisp]
  congr 1
  funext q
  simp only [List.map_id, mem_filledDigits_iff, mem_window_iff, Fin.getElem_fin, Vector.getElem_ofFn]
  by_cases shown : q.val < min 6 len.val
  · rw [if_pos shown, if_neg (by omega), if_pos shown]
    rfl
  · cases fill <;> simp [shown, Nat.le_of_not_lt shown]

/-- The trace of `RENDER_TRAILING` with its blanks as one list of positions. -/
theorem trailingTrace_eq (s : State) (base : BufAddr) (len : Len) : trailingTrace s base len =
    ((digits.take (window len)).flatMap fun i =>
      [.bufRead (trailingAddr base len i) (s.buf.read (trailingAddr base len i)),
        putEvent i (encodeChar s.cfg (s.buf.read (trailingAddr base len i)))]) ++
      (filledDigits s.cfg.trailingBlankFill len).map fun p => putEvent p blank := by
  rw [trailingTrace]
  cases s.cfg.trailingBlankFill <;> rfl

/-- The accesses of `RENDER_TRAILING` with a character to show, all of which complete. -/
theorem renderTrailing_answered {len : Len} (nonempty : 0 < len.val) (base : BufAddr) {s : State}
    (answered : s.busAnswers (if s.cfg.trailingBlankFill = true then 6 else min 6 len.val) = true) :
    renderTrailing base len s = .ok { s with
      disp := trailingDisp s.cfg.trailingBlankFill base len s
      bus := s.bus.drop (if s.cfg.trailingBlankFill = true then 6 else min 6 len.val)
      trace := s.trace ++ trailingTrace s base len } := by
  rw [← filledDigits_length] at answered ⊢
  have characters := showChars_answered (trailingAddr base len) id (digits.take (window len)) s
    (window_length len ▸ busAnswers_prefix answered)
  rw [window_length] at characters
  rw [renderTrailing_nonempty nonempty]
  refine (congrArg (· >>= _) characters).trans ((blankDigits_answered _ _ (busAnswers_after rfl answered)).trans ?_)
  simp only [id_eq, List.drop_drop, foldl_filledDigits, List.append_assoc, trailingTrace_eq]

/-- The state in which `RENDER_TRAILING` with a character to show answers (R143). -/
theorem exec_renderTrailing_answered {len : Len} (nonempty : 0 < len.val) (base : BufAddr) {s : State}
    (running : s.fault = false)
    (answered : s.busAnswers (if s.cfg.trailingBlankFill = true then 6 else min 6 len.val) = true) :
    exec (.renderTrailing base len) s = .next { s with
      disp := trailingDisp s.cfg.trailingBlankFill base len s
      bus := s.bus.drop (if s.cfg.trailingBlankFill = true then 6 else min 6 len.val)
      trace := s.trace ++ trailingTrace s base len
      responses := s.responses ++ [0x00000000#32] } :=
  exec_zero (i := .renderTrailing base len) running (congrArg thenZero (renderTrailing_answered nonempty base answered))

/-- With no character to show `RENDER_TRAILING` has the body of `CLEAR_ALL` (R143). -/
theorem exec_renderTrailing_empty {len : Len} (empty : len.val = 0) (base : BufAddr) (s : State) :
    exec (.renderTrailing base len) s = exec .clearAll s := by
  obtain rfl : len = 0 := Fin.ext empty
  rw [exec_eq_perform, exec_eq_perform, body_renderTrailing_empty]

/-- Settles O40: the word by its fields; refused, a clear, or the characters of the tail and then the blanks. -/
theorem renderTrailingShowsTheTail : Obligations.RenderTrailingShowsTheTail := by
  refine fun base len s => ⟨wordB_places 0x8#4 len base, exec_refused _, fun running empty answered => ?_,
    fun running nonempty answered => exec_renderTrailing_answered nonempty base running answered⟩
  rw [exec_renderTrailing_empty empty, exec_clearAll_answered running answered]
  rfl

/-- Two fills leave the same latches exactly if the one that blanks finds blank the positions past the window. -/
theorem trailingDisp_eq_iff (base : BufAddr) (len : Len) (s : State) :
    trailingDisp false base len s = trailingDisp true base len s ↔
      ∀ p : Digit, min 6 len.val ≤ p.val → s.disp[p] = blank := by
  have each (p : Digit) (fill : Bool) (past : min 6 len.val ≤ p.val) :
      (trailingDisp fill base len s)[p] = if fill = true then blank else s.disp[p] := by
    rw [trailingDisp, Fin.getElem_fin, Vector.getElem_ofFn]
    exact if_neg (Nat.not_lt.2 past)
  constructor
  · intro same p past
    simpa [each p _ past] using congrArg (·[p]) same
  · intro stale
    rw [trailingDisp, trailingDisp]
    congr 1
    funext p
    split
    · rfl
    · next past => exact stale p (Nat.not_lt.1 past)

/-- Settles O41: both runs complete, and they differ in the fill alone. -/
theorem blankFillMattersOnlyOnStaleDigits : Obligations.BlankFillMattersOnlyOnStaleDigits := by
  intro base len s t u running nonempty answered kept filled
  have six : min 6 len.val + (6 - min 6 len.val) = 6 := by omega
  have answeredWindow : s.busAnswers (min 6 len.val) = true := busAnswers_prefix (six ▸ answered)
  rw [exec_renderTrailing_answered (s := { s with cfg := { s.cfg with trailingBlankFill := false } }) nonempty base
    running answeredWindow] at kept
  rw [exec_renderTrailing_answered (s := { s with cfg := { s.cfg with trailingBlankFill := true } }) nonempty base
    running answered] at filled
  cases kept
  cases filled
  exact trailingDisp_eq_iff base len s

/-! ### `RENDER_RESULT` -/

/-- What the latches show after `RENDER_RESULT` (R144). -/
def resultDisp (base : BufAddr) (len : Len) (s : State) : Vector Pattern 6 :=
  Vector.ofFn fun p : Digit =>
    if 5 - p.val < min 6 len.val then encodeChar s.cfg (s.buf.read (charAddr base (5 - p.val))) else s.disp[p]

/-- Position `5 - i` is written with the `i`-th character. -/
theorem foldl_resultDigits (base : BufAddr) (len : Len) (s : State) :
    (digits.take (window len)).foldl (fun (d : Vector Pattern 6) (i : Digit) =>
      d.set (resultDigit i) (encodeChar s.cfg (s.buf.read (resultAddr base i)))) s.disp = resultDisp base len s := by
  have character (i : Digit) : resultAddr base i = charAddr base (5 - (resultDigit i).val) := by
    have counted : 5 - (resultDigit i).val = i.val := by
      simp only [resultDigit]
      omega
    rw [counted, resultAddr]
  simp only [character]
  rw [foldl_set_eq_ofFn resultDigit fun p => encodeChar s.cfg (s.buf.read (charAddr base (5 - p.val)))]
  simp only [mem_resultDigits_iff]
  rfl

/-- The accesses of `RENDER_RESULT`, all of which complete. -/
theorem showResult_answered (base : BufAddr) {len : Len} {s : State} (answered : s.busAnswers (min 6 len.val) = true) :
    showResult base len s = .ok { s with
      disp := resultDisp base len s
      bus := s.bus.drop (min 6 len.val)
      trace := s.trace ++ resultTrace s base len } := by
  rw [← window_length] at answered
  refine (showChars_answered (resultAddr base) resultDigit _ s answered).trans ?_
  rw [foldl_resultDigits, window_length]
  rfl

/-- Settles O42: the word by its fields; refused, or the characters of the head. -/
theorem renderResultShowsTheHead : Obligations.RenderResultShowsTheHead :=
  fun base len _ => ⟨wordB_places 0x9#4 len base, exec_refused _, fun running answered =>
    exec_zero (i := .renderResult base len) running (congrArg thenZero (showResult_answered base answered))⟩

/-! ### The frames -/

/-- `WRITE_AT` with a position past 5 is refused or faults, and does nothing else. -/
theorem exec_writeAt_past {ch : CharCode} {pos : Pos} {s t : State} (past : 5 < pos.val)
    (h : exec (.writeAt ch pos) s = .next t) :
    ∃ fault responses, t = { s with fault := fault, responses := responses } := by
  rcases Bool.eq_false_or_eq_true s.fault with faulted | running
  · rw [exec_refused _ faulted] at h
    cases h
    exact ⟨s.fault, _, rfl⟩
  · rw [exec_writeAt_out_of_range running past] at h
    cases h
    exact ⟨true, _, rfl⟩

theorem body_writeAt_in {pos : Pos} (inRange : pos.val ≤ 5) (ch : CharCode) (s : State) :
    body (.writeAt ch pos) s = thenZero (put ⟨pos.val, by omega⟩ (encodeChar s.cfg ch) s) :=
  congrArg thenZero (writeAt_in inRange ch s)

/-- A display operation in its stated domain is a sequence of writes of latches and reads of `BUF`. -/
theorem display_body {i : Instr} {ch : CharCode} {pos : Pos} {base : BufAddr} {len : Len}
    (display : i ∈ [.writeAt ch pos, .clearAll, .renderTrailing base len, .renderResult base len])
    (domain : i.inDomain = true) (s : State) : ∃ r, body i s = thenZero r ∧ EndsWithin OnlyDisplay s r := by
  simp only [List.mem_cons, List.not_mem_nil, or_false] at display
  rcases display with rfl | rfl | rfl | rfl
  · have inRange : pos.val ≤ 5 := by simpa [Instr.inDomain] using domain
    exact ⟨_, body_writeAt_in inRange ch s, put_only _ _ s⟩
  · exact ⟨_, rfl, blankDigits_only digits s⟩
  · exact ⟨_, rfl, renderTrailing_only base len s⟩
  · exact ⟨_, rfl, showResult_only base len s⟩

/-- Settles O45: past position 5 nothing is accessed, and else what is accessed is the display and `BUF`. -/
theorem displayFrame : Obligations.DisplayFrame := by
  intro ch pos base len i s t display h
  rcases Bool.eq_false_or_eq_true i.inDomain with inside | outside
  · obtain ⟨r, runs, within⟩ := display_body display inside s
    obtain ⟨u, hung, responses, only, rfl⟩ := exec_endsWithin OnlyDisplay.refl h runs within
    rw [only]
    exact ⟨rfl, rfl, rfl, rfl, rfl, rfl, rfl, fun _ => rfl, .inl rfl⟩
  · obtain ⟨ch', pos', rfl, past⟩ := inDomain_eq_false outside
    obtain ⟨rfl, rfl⟩ : ch' = ch ∧ pos' = pos := by simpa using display
    obtain ⟨fault, responses, rfl⟩ := exec_writeAt_past past h
    exact ⟨rfl, rfl, rfl, rfl, rfl, rfl, rfl, fun _ => rfl, .inr ⟨rfl, past⟩⟩

/-- `t` shows at position `q` what `s` shows. -/
abbrev SameLatch (q : Digit) (s t : State) : Prop := t.disp[q] = s.disp[q]

/-- An operation whose writes pass a position by leaves its latch alone, also when it hangs. -/
theorem exec_sameLatch {q : Digit} {i : Instr} {s t : State} {r : Except Stop State} (h : exec i s = .next t)
    (runs : body i s = thenZero r) (within : EndsWithin (SameLatch q) s r) : t.disp[q] = s.disp[q] := by
  obtain ⟨u, hung, responses, same, rfl⟩ := exec_endsWithin (R := SameLatch q) (fun _ => rfl) h runs within
  exact same

/-- Characters shown at other positions. -/
theorem showChars_sameLatch {q : Digit} {addr : Digit → BufAddr} {pos : Digit → Digit} {ps : List Digit}
    (unwritten : q ∉ ps.map pos) (s : State) :
    EndsWithin (SameLatch q) s (ps.foldlM (fun s i => showChar (addr i) (pos i) s) s) :=
  EndsWithin.foldlM (R := SameLatch q) (fun _ => rfl) (fun _ _ _ first later => later.trans first) ps s fun i hi t =>
    showChar_other q (pos i) (fun same => unwritten (same ▸ List.mem_map_of_mem hi)) _ t

/-- Without blank fill `RENDER_TRAILING` is its characters. -/
theorem renderTrailing_unfilled {len : Len} {s : State} (nonempty : 0 < len.val)
    (unfilled : s.cfg.trailingBlankFill = false) (base : BufAddr) :
    renderTrailing base len s = showTrailing base len s := by
  rw [renderTrailing_nonempty nonempty, unfilled]
  exact bind_pure _

/-- Settles O46: the positions written are that of `WRITE_AT`, those of the window, and those counted down from 5. -/
theorem unwrittenLatchesKeepTheirPattern : Obligations.UnwrittenLatchesKeepTheirPattern := by
  refine ⟨fun ch pos s t q h other => ?_, fun base len s t q h nonempty unfilled past => ?_,
    fun base len s t q h past => ?_⟩
  · by_cases inRange : pos.val ≤ 5
    · exact exec_sameLatch h (body_writeAt_in inRange ch s)
        (put_other q _ (fun same => other (congrArg Fin.val same)) _ s)
    · obtain ⟨fault, responses, rfl⟩ := exec_writeAt_past (Nat.not_le.1 inRange) h
      rfl
  · have unwritten : q ∉ (digits.take (window len)).map id := by
      rw [List.map_id, mem_window_iff]
      omega
    exact exec_sameLatch h (congrArg thenZero (renderTrailing_unfilled nonempty unfilled base))
      (showChars_sameLatch unwritten s)
  · have unwritten : q ∉ (digits.take (window len)).map resultDigit := by
      rw [mem_resultDigits_iff]
      omega
    exact exec_sameLatch h rfl (showChars_sameLatch unwritten s)

/-! ### The latches and the row lines are write-only -/

/-- `t` differs from `s` in the latches and the row lines alone. -/
def SameButOutputs (s t : State) : Prop := ∃ disp rowsel, t = { s with disp := disp, rowsel := rowsel }

/-- Two runs end alike: with results that `P` relates, or both waiting or both raising the same cause, in states that
differ in the latches and the row lines alone. -/
def EndAlike {α : Type} (P : α → α → Prop) : Except Stop α → Except Stop α → Prop
  | .ok x, .ok y => P x y
  | .error (.hang s), .error (.hang t) => SameButOutputs s t
  | .error (.raised c s), .error (.raised c' t) => c = c' ∧ SameButOutputs s t
  | _, _ => False

theorem EndAlike.bind {α β : Type} {P : α → α → Prop} {Q : β → β → Prop} {r r' : Except Stop α}
    {f f' : α → Except Stop β} (first : EndAlike P r r') (later : ∀ x y, P x y → EndAlike Q (f x) (f' y)) :
    EndAlike Q (r >>= f) (r' >>= f') := by
  match r, r', first with
  | .ok x, .ok y, first => exact later x y first
  | .error (.hang _), .error (.hang _), first => exact first
  | .error (.raised _ _), .error (.raised _ _), first => exact first

/-- An action runs alike whatever the latches and the row lines hold. -/
def IgnoresOutputs (a : Action) : Prop := ∀ s t, SameButOutputs s t → EndAlike SameButOutputs (a s) (a t)

theorem IgnoresOutputs.foldlM {α : Type} {f : State → α → Except Stop State}
    (each : ∀ x, IgnoresOutputs fun s => f s x) : ∀ l : List α, IgnoresOutputs fun s => l.foldlM f s
  | [], _, _, same => same
  | x :: l, s, t, same => by
    simp only [List.foldlM_cons]
    exact (each x s t same).bind (foldlM each l)

theorem busAccess_ignores : IgnoresOutputs busAccess := by
  rintro s _ ⟨disp, rowsel, rfl⟩
  unfold busAccess
  dsimp only
  split <;> exact ⟨disp, rowsel, rfl⟩

/-- A write of the row lines, with a value that the parameters decide (R54). -/
theorem rowWrite_ignores (v : Config → Word) : IgnoresOutputs fun s => rowWrite (v s.cfg) s := by
  rintro s _ ⟨disp, rowsel, rfl⟩
  refine (busAccess_ignores s _ ⟨disp, rowsel, rfl⟩).bind ?_
  rintro u _ ⟨disp, rowsel, rfl⟩
  exact ⟨disp, _, rfl⟩

/-- A write of a latch, with a pattern that the parameters and `BUF` decide (R145). -/
theorem put_ignores (p : Digit) (v : Config → Memory → Pattern) : IgnoresOutputs fun s => put p (v s.cfg s.buf) s := by
  rintro s _ ⟨disp, rowsel, rfl⟩
  refine (busAccess_ignores s _ ⟨disp, rowsel, rfl⟩).bind ?_
  rintro u _ ⟨disp, rowsel, rfl⟩
  rw [latchAt_routed]
  exact ⟨disp.set p _, rowsel, rfl⟩

/-- Two results are the same, but for the latches and the row lines of their states. -/
def SameResult {α : Type} (x y : α × State) : Prop := x.1 = y.1 ∧ SameButOutputs x.2 y.2

/-- A read of the pins draws the same word (R55). -/
theorem inputRead_alike {s t : State} (same : SameButOutputs s t) : EndAlike SameResult (inputRead s) (inputRead t) := by
  refine (busAccess_ignores s t same).bind ?_
  rintro u _ ⟨disp, rowsel, rfl⟩
  rw [nextInput_eq, nextInput_eq]
  exact ⟨rfl, disp, rowsel, rfl⟩

theorem scanRow_ignores (r : Row) : IgnoresOutputs fun s => scanRow s r := by
  intro s t same
  simp only [scanRow_eq]
  refine (rowWrite_ignores (fun cfg => cfg.rowPat[r].setWidth 32) s t same).bind fun u v same => ?_
  refine (inputRead_alike same).bind ?_
  rintro ⟨w, u⟩ ⟨_, _⟩ ⟨rfl, disp, rowsel, rfl⟩
  exact rowWrite_ignores (fun _ => 0#32) _ _ ⟨disp, rowsel, rfl⟩

theorem showChar_ignores (a : BufAddr) (p : Digit) : IgnoresOutputs (showChar a p) := by
  rintro s _ ⟨disp, rowsel, rfl⟩
  simp only [showChar_eq]
  exact put_ignores p (fun cfg buf => encodeChar cfg (buf.read a)) _ _ ⟨disp, rowsel, rfl⟩

theorem blankDigits_ignores (ps : List Digit) : IgnoresOutputs (blankDigits ps) :=
  .foldlM (fun p => put_ignores p fun _ _ => blank) ps

theorem showTrailing_ignores (base : BufAddr) (len : Len) : IgnoresOutputs (showTrailing base len) :=
  .foldlM (fun i => showChar_ignores (trailingAddr base len i) i) _

theorem showResult_ignores (base : BufAddr) (len : Len) : IgnoresOutputs (showResult base len) :=
  .foldlM (fun i => showChar_ignores (resultAddr base i) (resultDigit i)) _

theorem renderTrailing_ignores (base : BufAddr) (len : Len) : IgnoresOutputs (renderTrailing base len) := by
  rintro s _ ⟨disp, rowsel, rfl⟩
  unfold renderTrailing
  split
  · exact blankDigits_ignores digits _ _ ⟨disp, rowsel, rfl⟩
  · refine (showTrailing_ignores base len s _ ⟨disp, rowsel, rfl⟩).bind fun u v same => ?_
    dsimp only
    split
    · exact blankDigits_ignores _ u v same
    · exact same

theorem writeAt_ignores (ch : CharCode) (pos : Pos) : IgnoresOutputs (writeAt ch pos) := by
  intro s t same
  by_cases inRange : pos.val ≤ 5
  · simp only [writeAt_in inRange]
    exact put_ignores _ (fun cfg _ => encodeChar cfg ch) s t same
  · simp only [writeAt_raises (Nat.not_le.1 inRange)]
    exact ⟨rfl, same⟩

theorem IgnoresOutputs.thenZero {a : Action} (ignores : IgnoresOutputs a) {s t : State} (same : SameButOutputs s t) :
    EndAlike SameResult (thenZero (a s)) (thenZero (a t)) :=
  (ignores s t same).bind fun _ _ same => ⟨rfl, same⟩

/-- The body of every operation, and the data it answers (R148). -/
theorem body_alike (i : Instr) {s t : State} (same : SameButOutputs s t) :
    EndAlike SameResult (body i s) (body i t) := by
  cases i with
  | scan => exact (IgnoresOutputs.foldlM scanRow_ignores rows).thenZero same
  | isPressed | justPressed | justReleased | encode =>
    obtain ⟨disp, rowsel, rfl⟩ := same
    exact ⟨rfl, disp, rowsel, rfl⟩
  | writeAt ch pos => exact (writeAt_ignores ch pos).thenZero same
  | clearAll => exact (blankDigits_ignores digits).thenZero same
  | renderTrailing base len => exact (renderTrailing_ignores base len).thenZero same
  | renderResult base len => exact (showResult_ignores base len).thenZero same
  | sample =>
    refine (inputRead_alike same).bind ?_
    rintro ⟨w, u⟩ ⟨_, _⟩ ⟨rfl, same⟩
    exact ⟨rfl, same⟩

theorem settle_alike {r r' : Except Stop (BitVec 8 × State)} (alike : EndAlike SameResult r r') :
    SameButOutputs (settle r) (settle r') := by
  match r, r', alike with
  | .ok (_, _), .ok (_, _), alike =>
    obtain ⟨rfl, disp, rowsel, rfl⟩ := alike
    exact ⟨disp, rowsel, rfl⟩
  | .error (.hang _), .error (.hang _), ⟨disp, rowsel, rfl⟩ => exact ⟨disp, rowsel, rfl⟩
  | .error (.raised c _), .error (.raised _ _), ⟨rfl, disp, rowsel, rfl⟩ => cases c <;> exact ⟨disp, rowsel, rfl⟩

/-- What an operation makes of the rest of the state does not depend on the latches and the row lines. -/
theorem exec_alike {i : Instr} {s s' t : State} (same : SameButOutputs s s') (h : exec i s = .next t) :
    ∃ u, exec i s' = .next u ∧ SameButOutputs t u := by
  have bodies := settle_alike (body_alike i same)
  obtain ⟨disp, rowsel, rfl⟩ := same
  rw [exec_eq_perform] at h ⊢
  cases h
  refine ⟨_, rfl, ?_⟩
  dsimp only
  split
  · exact ⟨disp, rowsel, rfl⟩
  · exact bodies

/-- Settles O48: the two runs go alike, action by action. -/
theorem latchesCannotBeReadBack : Obligations.LatchesCannotBeReadBack := by
  intro i s t d v h
  obtain ⟨u, run, disp, rowsel, rfl⟩ := exec_alike ⟨d, v, rfl⟩ h
  exact ⟨_, run, rfl, rfl, rfl, rfl, rfl, rfl⟩

end Sys2Proof.Machine
end

section
/-! PROOFS of the battery statements (43_battery_monitor.md): what `SAMPLE` answers and what it leaves alone (R161). -/

namespace Sys2Proof.Machine

/-- The state in which a `SAMPLE` answers whose access has completed: a word is drawn, and no state of the block changes
(R55, R161). -/
def afterSample (s : State) : State := { s with
  inputs := s.inputs.drop 1
  draws := s.draws + s.freeDraws 1
  bus := s.bus.drop 1
  trace := s.trace ++ [.inRead (s.upcoming 0)] }

/-- Five bits in `DATA`, zero-extended, as a response word (R88, R161). -/
theorem battField_word (w : Word) : ((battField w).setWidth 8).setWidth 32 = (w.extractLsb' 11 5).setWidth 32 := by
  have widens : ∀ b : BitVec 5, (b.setWidth 8).setWidth 32 = b.setWidth 32 := by decide
  exact widens _

theorem exec_sample_answered {s : State} (running : s.fault = false) (answered : s.busAnswers 1 = true) :
    exec .sample s = .next ((afterSample s).respond (((s.upcoming 0).extractLsb' 11 5).setWidth 32)) := by
  have ends : body .sample s = .ok ((battField (s.upcoming 0)).setWidth 8, afterSample s) := by
    simp only [body, inputRead_answered s 0 answered]
    rfl
  rw [exec_eq_perform, perform_running _ _ running, ends, settle_ok, battField_word]

/-- Where the one access of `SAMPLE` never completes, nothing but that access has been used up (R70). -/
theorem exec_sample_hangs {s : State} (running : s.fault = false) (unanswered : s.busAnswers 1 = false) :
    exec .sample s = .next { s with bus := s.bus.drop 1, hung := true } := by
  obtain ⟨k, rest, first, stalls⟩ := first_hang s.bus 1 unanswered
  obtain rfl : k = 0 := by omega
  have bus : s.bus = false :: rest := stalls
  have hangs : body .sample s = .error (.hang { s with bus := rest }) := by
    simp only [body, inputRead_hang bus]
    rfl
  rw [exec_eq_perform, perform_running _ _ running, hangs, bus]
  rfl

/-- The inversion of `SAMPLE`: it is refused, answers, or hangs at its read. -/
theorem exec_sample_cases {s t : State} (h : exec .sample s = .next t) :
    (s.fault = true ∧ t = { s with responses := s.responses ++ [0x80030000#32] }) ∨
    (s.fault = false ∧ s.busAnswers 1 = true ∧
      t = (afterSample s).respond (((s.upcoming 0).extractLsb' 11 5).setWidth 32)) ∨
    (s.fault = false ∧ s.busAnswers 1 = false ∧ t = { s with bus := s.bus.drop 1, hung := true }) := by
  rcases Bool.eq_false_or_eq_true s.fault with faulted | running
  · rw [exec_refused _ faulted] at h
    cases h
    exact .inl ⟨faulted, rfl⟩
  rcases Bool.eq_false_or_eq_true (s.busAnswers 1) with answered | unanswered
  · rw [exec_sample_answered running answered] at h
    cases h
    exact .inr (.inl ⟨running, answered, rfl⟩)
  · rw [exec_sample_hangs running unanswered] at h
    cases h
    exact .inr (.inr ⟨running, unanswered, rfl⟩)

/-- Settles O49: the read completes and its word is answered, the block is faulted and refuses, or the read hangs. -/
theorem sampleAnswersTheRawBits : Obligations.SampleAnswersTheRawBits :=
  ⟨rfl, fun _ => ⟨exec_sample_answered, exec_refused .sample,
    fun running unanswered => ⟨_, exec_sample_hangs running unanswered, rfl, rfl⟩⟩⟩

/-- Settles O50, by the three ways `SAMPLE` goes, none of which touches a register of the block, the port or `BUF`. -/
theorem sampleFrame : Obligations.SampleFrame := by
  intro s t h
  rcases exec_sample_cases h with ⟨-, rfl⟩ | ⟨-, -, rfl⟩ | ⟨-, -, rfl⟩
  · exact ⟨rfl, rfl, rfl, rfl, rfl, rfl, rfl, fun _ => rfl⟩
  · exact ⟨rfl, rfl, rfl, rfl, rfl, rfl, rfl, fun _ => rfl⟩
  · exact ⟨rfl, rfl, rfl, rfl, rfl, rfl, rfl, fun _ => rfl⟩

end Sys2Proof.Machine
end

section
/-! PROOFS of the exception statements (60_exceptions.md): a next state for every step (R170), an idle block (R186), a
faulted one (R173), and the order of the abnormal outcomes (R175). -/

namespace Sys2Proof.Machine

/-! ### Every step has a next state -/

/-- A command word has a next state: refused as `Faulted` or as reserved, or the operation it spells (R170, R175). -/
theorem acceptCommand_answers (w : Word) (s : State) : ∃ t, acceptCommand exec w s = .next t := by
  unfold acceptCommand
  split
  · exact ⟨_, rfl⟩
  · split
    · exact ⟨_, rfl⟩
    · next i _ => exact exec_answers i s

/-- A step has a next state, whatever is at the port. -/
theorem step_answers (s : State) : ∃ t, step s = .next t := by
  unfold step nextStimulus
  split
  · exact ⟨_, rfl⟩
  · exact ⟨_, rfl⟩
  · exact ⟨_, rfl⟩
  · next w rest _ =>
    split
    · exact ⟨_, rfl⟩
    · exact acceptCommand_answers w { s with port := rest }

/-- Settles O7: steps by the stimulus at the port, operations because each is a body run to its outcome. -/
theorem everyStepAnswersANextState : Obligations.EveryStepAnswersANextState := ⟨step_answers, exec_answers⟩

/-- With an empty port a step changes nothing (R186). -/
theorem step_empty_port {s : State} (empty : s.port = []) : step s = .next s := by
  simp only [step, nextStimulus, empty]

/-- Settles O8: the reset state is one with an empty port. -/
theorem blockWithoutStimulusIdles : Obligations.BlockWithoutStimulusIdles :=
  ⟨fun _ => step_empty_port, step_empty_port rfl⟩

/-! ### A faulted block -/

/-- Settles O9: the refusal of a command, and the inversion of the step for what clears `FAULT`. -/
theorem faultedBlockRefusesEveryCommand : Obligations.FaultedBlockRefusesEveryCommand :=
  ⟨fun _ _ _ => step_refuses, fun _ _ => step_clears_fault⟩

/-! ### The order of the abnormal outcomes -/

/-- An operation hangs only where it is not faulted and raises nothing, at the first access that does not complete
(R70, R175). -/
theorem exec_hangs_only {i : Instr} {s t : State} (h : exec i s = .next t) (idle : s.hung = false)
    (hangs : t.hung = true) :
    s.fault = false ∧ i.inDomain = true ∧ ∃ k, s.bus = List.replicate k true ++ false :: t.bus := by
  have unchanged : s.hung ≠ true := by simp [idle]
  rcases Bool.eq_false_or_eq_true i.inDomain with inside | outside
  · rcases exec_cases h with ⟨-, rfl⟩ | ⟨-, _, u, -, follows, rfl⟩ | ⟨running, u, -, follows, rfl⟩ | ⟨-, _, _, -, -, rfl⟩
    · exact absurd hangs unchanged
    · exact absurd (follows.hung.symm.trans hangs) unchanged
    · exact ⟨running, inside, follows.bus⟩
    · exact absurd hangs unchanged
  · obtain ⟨ch, pos, rfl, past⟩ := inDomain_eq_false outside
    obtain ⟨_, _, rfl⟩ := exec_writeAt_past past h
    exact absurd hangs unchanged

/-- A command hangs only if it is neither refused nor raises a cause: its operation does. -/
theorem acceptCommand_hangs_only {w : Word} {s t : State} (h : acceptCommand exec w s = .next t) (idle : s.hung = false)
    (hangs : t.hung = true) : s.fault = false ∧ (∃ i, decode w = .ok i ∧ i.inDomain = true) ∧
      ∃ k, s.bus = List.replicate k true ++ false :: t.bus := by
  have unchanged : s.hung ≠ true := by simp [idle]
  rcases acceptCommand_cases h with ⟨-, rfl⟩ | ⟨-, -, rfl⟩ | ⟨-, i, dec, run⟩
  · exact absurd hangs unchanged
  · exact absurd hangs unchanged
  · obtain ⟨running, domain, bus⟩ := exec_hangs_only run idle hangs
    exact ⟨running, ⟨i, dec, domain⟩, bus⟩

/-- Settles O11: the refusals in the order in which a command is checked, and what is left for a hang. -/
theorem abnormalOutcomesInOrder : Obligations.AbnormalOutcomesInOrder := by
  refine fun s w rest port idle => ⟨step_refuses port idle, step_refuses_reserved port idle,
    fun ch pos running dec past => ?_, fun t h hangs => ?_⟩
  · rw [step_runs port idle running dec]
    exact exec_writeAt_out_of_range (s := { s with port := rest }) running past
  · rw [step_command port idle] at h
    exact acceptCommand_hangs_only (s := { s with port := rest }) h idle hangs

end Sys2Proof.Machine
end

section
/-! PROOFS of the reset and hazard statements (70_reset_and_hazards.md): the reset event, between operations and during
one (R200), the keypad and the display as two sides that share no state (R203), and the invariant at the reset state. -/

namespace Sys2Proof.Machine

/-! ### The reset state -/

/-- The device's configuration meets the constraints of R7: the free one only if it does, else the witness. -/
theorem device_wf : Config.device.wf = true := by
  unfold Config.device
  split
  · assumption
  · decide

/-- Settles O56: the parameters are the device's; nothing is stored, performed or answered yet. -/
theorem invariantHoldsAtReset : Obligations.InvariantHoldsAtReset where
  params := device_wf
  buffer := ⟨List.Pairwise.nil, nofun⟩
  events := nofun
  answers := nofun

/-! ### Where a Reset finds the block -/

/-- A Reset at the head of the port is taken, whatever the block is doing (R200). -/
theorem step_takes_reset {s : State} {during : Option (Word × Nat)} {rest : List Stimulus}
    (port : s.port = .reset during :: rest) : step s = .next (acceptReset during { s with port := rest }) := by
  simp only [step, nextStimulus, port]

/-- What R40 says of a Reset: both grids all false. -/
theorem resetEvent_grids (s : State) (r : Row) (c : Col) :
    s.resetEvent.cur.cell r c = false ∧ s.resetEvent.prev.cell r c = false := by
  simp

/-- Settles O12: a Reset is the reset event in the state it finds; the inversion of the step, and that of an empty port,
for the rest. -/
theorem resetAbortsAndClears : Obligations.ResetAbortsAndClears := by
  refine ⟨fun s during rest port => ?_, fun _ _ => step_clears_fault, fun _ => step_empty_port⟩
  obtain ⟨u, reset, accepted, responses, -⟩ := acceptReset_cases during { s with port := rest }
  exact ⟨u.resetEvent, reset ▸ step_takes_reset port, accepted.port, responses, rfl, rfl, resetEvent_grids u⟩

/-! ### A Reset during an operation -/

/-- `v` is `s` after the first `n` of the events by which `u` comes after `s`, with their draws and accesses; past the last
event, an access that `u` has been waiting for is used up as well (R200, R70). -/
def CutOff (n : Nat) (s u v : State) : Prop :=
  ∃ events, u.trace = s.trace ++ events ∧
    v.trace = s.trace ++ events.take n ∧ v.inputs = s.inputs.drop (countReads (events.take n)) ∧
    (n ≤ events.length → v.bus = s.bus.drop (countAccesses (events.take n))) ∧
    (events.length < n → v.bus = u.bus)

/-- With no event to perform, a Reset finds the state in which the command was accepted. -/
theorem CutOff.of_no_event {n : Nat} {s u : State} (trace : u.trace = s.trace) (bus : u.bus = s.bus) :
    CutOff n s u s :=
  ⟨[], by simp [trace], by simp, by simp [countReads], by simp [countAccesses], fun _ => bus.symm⟩

/-- Actions of one event each, cut off after any number of them, where they would come to their end or wait for ever. -/
theorem runAll_cutOff {l : List Action} {s u : State} (one : ∀ a ∈ l, IsOneEvent a)
    (run : runAll l s = .ok u ∨ runAll l s = .error (.hang u)) (n : Nat) : CutOff n s u (afterActions n l s) := by
  obtain ⟨events, ends, cut⟩ := runAll_events l s one
  obtain ⟨early, late⟩ := cut n
  obtain ⟨trace, inputs⟩ : u.trace = s.trace ++ events ∧ u.inputs = s.inputs.drop (countReads events) := by
    rcases ends with ⟨t, done, -, after⟩ | ⟨t, hangs, -, trace, inputs, -⟩
    · rcases run with run | run <;> cases run.symm.trans done
      exact ⟨after.trace, after.inputs⟩
    · rcases run with run | run <;> cases run.symm.trans hangs
      exact ⟨trace, inputs⟩
  refine ⟨events, trace, ?_⟩
  rcases Nat.lt_or_ge events.length n with past | within
  · have reached : afterActions n l s = u := by
      rw [afterActions, late past]
      rcases run with run | run <;> rw [run]
    rw [reached, List.take_of_length_le past.le]
    exact ⟨trace, inputs, fun within => absurd past (Nat.not_lt.2 within), fun _ => rfl⟩
  · obtain ⟨t, done, after⟩ := early within
    have reached : afterActions n l s = t := by rw [afterActions, done]
    rw [reached]
    exact ⟨after.trace, after.inputs, fun _ => after.bus, fun past => absurd past (Nat.not_lt.2 within)⟩

/-- An operation, cut off after any number of its events; a `WRITE_AT` that faults has none. -/
theorem exec_cutOff {i : Instr} {s u : State} (running : s.fault = false) (h : exec i s = .next u) (n : Nat) :
    CutOff n s u (afterActions n (actions i s) s) := by
  rcases Bool.eq_false_or_eq_true i.inDomain with inside | outside
  · rcases exec_actions running inside h with ⟨v, _, run, rfl⟩ | ⟨v, run, rfl⟩
    · exact runAll_cutOff (actions_one i s) (.inl run) n
    · exact runAll_cutOff (actions_one i s) (.inr run) n
  · obtain ⟨ch, pos, rfl, past⟩ := inDomain_eq_false outside
    obtain ⟨_, _, rfl⟩ := exec_writeAt_past past h
    have none : actions (.writeAt ch pos) s = [] := dif_neg (Nat.not_le.2 past)
    have stays : afterActions n [] s = s := by rw [afterActions, List.take_nil]; rfl
    rw [none, stays]
    exact .of_no_event rfl rfl

/-- A command word, cut off after any number of its events; a word that is refused has none (R172, R173). -/
theorem acceptCommand_cutOff {w : Word} {s u : State} (h : acceptCommand exec w s = .next u) (n : Nat) :
    CutOff n s u (midCommand w n s) := by
  rcases acceptCommand_cases h with ⟨faulted, rfl⟩ | ⟨running, ⟨e, dec⟩, rfl⟩ | ⟨running, i, dec, run⟩
  · rw [midCommand, if_pos faulted]
    exact .of_no_event rfl rfl
  · simp only [midCommand, running, dec]
    exact .of_no_event rfl rfl
  · simp only [midCommand, running, dec]
    exact exec_cutOff running run n

/-- A Reset during the operation of a command word, in a block that runs no other (R200, log 7). -/
theorem step_takes_reset_during {s : State} {w : Word} {n : Nat} {rest : List Stimulus}
    (port : s.port = .reset (some (w, n)) :: rest) (idle : s.hung = false) :
    step s = .next (midCommand w n { s with port := rest }).resetEvent := by
  rw [step_takes_reset port]
  simp [acceptReset, idle]

/-- Settles O15: the Reset finds the operation where it is cut off, and the reset event takes back none of its events. -/
theorem resetCutsAnOperationOff : Obligations.ResetCutsAnOperationOff := by
  intro s t u w n rest idle command reset
  have accept : acceptCommand exec w { s with port := rest } = .next u :=
    (step_command (s := { s with port := .command w :: rest }) rfl idle).symm.trans command
  obtain ⟨events, whole, trace, inputs, within, past⟩ := acceptCommand_cutOff accept n
  obtain ⟨accepted, responses⟩ := midCommand_accepted w n { s with port := rest }
  cases reset.symm.trans (step_takes_reset_during rfl idle)
  exact ⟨events, whole, trace, inputs, within, past, responses, rfl, rfl, accepted.port, resetEvent_grids _⟩

/-! ### A part of the state that an operation does not look at -/

/-- `f` puts other contents in a part of the state in which neither the bus nor `FAULT` nor the end of an operation has a
share. -/
structure Replaces (f : State → State) : Prop where
  fault : ∀ s, (f s).fault = s.fault
  bus : ∀ s, (f s).bus = s.bus
  access : ∀ s rest, ({ f s with bus := rest } : State) = f { s with bus := rest }
  respond : ∀ s w, (f s).respond w = f (s.respond w)
  raise : ∀ s c, (f s).raise c = f (s.raise c)
  hang : ∀ s, ({ f s with hung := true } : State) = f { s with hung := true }

/-- The same result, with `f` done to its state: `g` does it to a result that comes to its end. -/
def along {α : Type} (f : State → State) (g : α → α) : Except Stop α → Except Stop α
  | .ok x => .ok (g x)
  | .error (.hang s) => .error (.hang (f s))
  | .error (.raised c s) => .error (.raised c (f s))

/-- An action goes the same way after `f` as without it, and leaves what `f` put there. -/
def Ignores (f : State → State) (a : Action) : Prop := ∀ s, a (f s) = along f f (a s)

section
variable {f : State → State}

theorem Replaces.ignores_busAccess (replaces : Replaces f) : Ignores f busAccess := by
  intro s
  unfold busAccess
  rw [replaces.bus]
  split
  · rfl
  · next rest _ => exact congrArg Except.ok (replaces.access s rest)
  · next rest _ => exact congrArg (Except.error ∘ Stop.hang) (replaces.access s rest)

/-- An access, and something done once it completes. -/
theorem Replaces.ignores_of_access (replaces : Replaces f) {a : Action} {g : State → State → State}
    (access : ∀ s, a s = busAccess s >>= fun t => .ok (g s t)) (same : ∀ s t, g (f s) (f t) = f (g s t)) :
    Ignores f a := by
  intro s
  rw [access, access, replaces.ignores_busAccess]
  match busAccess s with
  | .ok t => exact congrArg Except.ok (same s t)
  | .error (.hang _) => rfl
  | .error (.raised _ _) => rfl

theorem Ignores.sequence {l : List Action} (each : ∀ a ∈ l, Ignores f a) : Ignores f (runAll l) := by
  induction l with
  | nil => exact fun _ => rfl
  | cons a l ih =>
    intro s
    rw [runAll_cons, runAll_cons, each a List.mem_cons_self]
    match a s with
    | .ok t => exact ih (fun b later => each b (List.mem_cons_of_mem a later)) t
    | .error (.hang _) => rfl
    | .error (.raised _ _) => rfl

/-- A body goes the same way after `f` as without it: with the same data, and what `f` put there left. -/
def BodyIgnores (f : State → State) (i : Instr) : Prop := ∀ s, body i (f s) = along f (Prod.map id f) (body i s)

theorem Ignores.bodyIgnores {i : Instr} {a : Action} (ignores : Ignores f a) (zero : ∀ s, body i s = thenZero (a s)) :
    BodyIgnores f i := by
  intro s
  rw [zero, zero, ignores]
  match a s with
  | .ok _ => rfl
  | .error (.hang _) => rfl
  | .error (.raised _ _) => rfl

/-- An operation whose body does not look at a part of the state leaves it alone, and makes the same of the rest,
whatever is there. -/
theorem Replaces.exec_ignores (replaces : Replaces f) {i : Instr} {s t : State} (ignores : BodyIgnores f i)
    (h : exec i s = .next t) : exec i (f s) = .next (f t) := by
  have settles : settle (body i (f s)) = f (settle (body i s)) := by
    rw [ignores]
    match body i s with
    | .ok _ => exact replaces.respond _ _
    | .error (.hang _) => exact replaces.hang _
    | .error (.raised _ _) => exact replaces.raise _ _
  rw [exec_eq_perform, perform] at h ⊢
  cases h
  rw [replaces.fault, replaces.raise, settles, apply_ite f]

end

/-! ### The keypad and the display -/

/-- `s` with other contents of the grids and the row lines, and other words to come at the pins. -/
def State.setKeypad (cur prev : Grid) (rowsel : Nibble) (inputs : List Word) (s : State) : State :=
  { s with cur := cur, prev := prev, rowsel := rowsel, inputs := inputs }

/-- `s` with other contents of the latches and of `BUF`. -/
def State.setDisplay (disp : Vector Pattern 6) (buf : Memory) (s : State) : State :=
  { s with disp := disp, buf := buf }

theorem setKeypad_replaces (g h : Grid) (v : Nibble) (ws : List Word) : Replaces (State.setKeypad g h v ws) where
  fault _ := rfl
  bus _ := rfl
  access _ _ := rfl
  respond _ _ := rfl
  raise _ c := by cases c <;> rfl
  hang _ := rfl

theorem setDisplay_replaces (d : Vector Pattern 6) (m : Memory) : Replaces (State.setDisplay d m) where
  fault _ := rfl
  bus _ := rfl
  access _ _ := rfl
  respond _ _ := rfl
  raise _ c := by cases c <;> rfl
  hang _ := rfl

section
variable (g h : Grid) (v : Nibble) (ws : List Word)

/-- A write of a latch, with a pattern that the parameters and `BUF` decide (R145). -/
theorem put_ignores_keypad (p : Digit) (pattern : Config → Memory → Pattern) :
    Ignores (State.setKeypad g h v ws) fun s => put p (pattern s.cfg s.buf) s :=
  (setKeypad_replaces g h v ws).ignores_of_access
    (g := fun s t => (t.setLatch p (pattern s.cfg s.buf)).record (putEvent p (pattern s.cfg s.buf)))
    (fun s => bind_congr fun t => by rw [latchAt_routed]; rfl) fun _ _ => rfl

theorem charActions_ignore_keypad (x : BufAddr) (p : Digit) :
    ∀ a ∈ charActions x p, Ignores (State.setKeypad g h v ws) a := by
  simp only [charActions, List.forall_mem_cons]
  exact ⟨fun _ => rfl, put_ignores_keypad g h v ws p fun cfg buf => encodeChar cfg (buf.read x),
    List.forall_mem_nil _⟩

theorem blankActions_ignore_keypad (ps : List Digit) :
    ∀ a ∈ blankActions ps, Ignores (State.setKeypad g h v ws) a := by
  intro a ha
  obtain ⟨p, -, rfl⟩ := List.mem_map.1 ha
  exact put_ignores_keypad g h v ws p fun _ _ => blank

/-- Characters of `BUF`, each shown at a position of its own (R143, R144). -/
theorem showActions_ignore_keypad (addr : Digit → BufAddr) (pos : Digit → Digit) (ps : List Digit) :
    ∀ a ∈ ps.flatMap fun i => charActions (addr i) (pos i), Ignores (State.setKeypad g h v ws) a := by
  intro a ha
  obtain ⟨i, -, ha⟩ := List.mem_flatMap.1 ha
  exact charActions_ignore_keypad g h v ws (addr i) (pos i) a ha

theorem trailingActions_ignore_keypad (fill : Bool) (base : BufAddr) (len : Len) :
    ∀ a ∈ trailingActions fill base len, Ignores (State.setKeypad g h v ws) a := by
  unfold trailingActions
  split
  · exact blankActions_ignore_keypad g h v ws digits
  · refine List.forall_mem_append.2 ⟨showActions_ignore_keypad g h v ws (trailingAddr base len) id _, ?_⟩
    split
    · exact blankActions_ignore_keypad g h v ws _
    · exact List.forall_mem_nil _

theorem renderTrailing_ignores_keypad (base : BufAddr) (len : Len) :
    Ignores (State.setKeypad g h v ws) (renderTrailing base len) := by
  intro s
  rw [← runAll_trailingActions, ← runAll_trailingActions]
  exact Ignores.sequence (trailingActions_ignore_keypad g h v ws s.cfg.trailingBlankFill base len) s

theorem writeAt_ignores_keypad (ch : CharCode) (pos : Pos) : Ignores (State.setKeypad g h v ws) (writeAt ch pos) := by
  intro s
  by_cases inRange : pos.val ≤ 5
  · rw [writeAt_in inRange, writeAt_in inRange]
    exact put_ignores_keypad g h v ws _ (fun cfg _ => encodeChar cfg ch) s
  · rw [writeAt_raises (Nat.not_le.1 inRange), writeAt_raises (Nat.not_le.1 inRange)]
    rfl

/-- No display operation looks at the grids, the row lines or the pins (R203). -/
theorem display_ignores_keypad {i : Instr} {ch : CharCode} {pos : Pos} {base : BufAddr} {len : Len}
    (display : i ∈ [.writeAt ch pos, .clearAll, .renderTrailing base len, .renderResult base len]) :
    BodyIgnores (State.setKeypad g h v ws) i := by
  simp only [List.mem_cons, List.not_mem_nil, or_false] at display
  rcases display with rfl | rfl | rfl | rfl
  · exact (writeAt_ignores_keypad g h v ws ch pos).bodyIgnores fun _ => rfl
  · exact (Ignores.sequence (blankActions_ignore_keypad g h v ws digits)).bodyIgnores fun s =>
      congrArg thenZero (runAll_blankActions digits s).symm
  · exact (renderTrailing_ignores_keypad g h v ws base len).bodyIgnores fun _ => rfl
  · exact (Ignores.sequence (showActions_ignore_keypad g h v ws (resultAddr base) resultDigit _)).bodyIgnores fun s =>
      congrArg thenZero (runAll_resultActions base len s).symm

end

section
variable (d : Vector Pattern 6) (m : Memory)

/-- A write of the row lines, with a value that the parameters decide (R54). -/
theorem rowWrite_ignores_display (value : Config → Word) :
    Ignores (State.setDisplay d m) fun s => rowWrite (value s.cfg) s :=
  (setDisplay_replaces d m).ignores_of_access
    (g := fun s t => { t with rowsel := (value s.cfg).extractLsb' 0 4 }.record
      (.rowSel ((value s.cfg).extractLsb' 0 4)))
    (fun _ => rfl) fun _ _ => rfl

theorem readRow_ignores_display (r : Row) : Ignores (State.setDisplay d m) (readRow r) :=
  (setDisplay_replaces d m).ignores_of_access
    (g := fun _ t => sampleRow r (nextInput t).1 ((nextInput t).2.record (.inRead (nextInput t).1)))
    (fun s => by rw [readRow, inputRead, bind_assoc]; rfl) fun _ t => by
      rw [nextInput_eq, nextInput_eq]
      rfl

theorem rowActions_ignore_display (r : Row) : ∀ a ∈ rowActions r, Ignores (State.setDisplay d m) a := by
  simp only [rowActions, List.forall_mem_cons]
  exact ⟨rowWrite_ignores_display d m fun cfg => cfg.rowPat[r].setWidth 32, readRow_ignores_display d m r,
    rowWrite_ignores_display d m fun _ => 0#32, List.forall_mem_nil _⟩

/-- `SCAN` does not look at the latches or at `BUF` (R203). -/
theorem scan_ignores_display : BodyIgnores (State.setDisplay d m) .scan := by
  refine (Ignores.sequence fun a ha => ?_).bodyIgnores fun s => congrArg thenZero (runAll_scanActions s).symm
  obtain ⟨r, -, ha⟩ := List.mem_flatMap.1 ha
  exact rowActions_ignore_display d m r a ha

end

/-- Settles O47: neither side's actions look at what the other side holds. -/
theorem keypadAndDisplayShareNoState : Obligations.KeypadAndDisplayShareNoState :=
  ⟨fun _ _ _ _ _ _ _ g h v ws display run =>
      (setKeypad_replaces g h v ws).exec_ignores (display_ignores_keypad g h v ws display) run,
    fun _ _ d m run => (setDisplay_replaces d m).exec_ignores (scan_ignores_display d m) run⟩

end Sys2Proof.Machine
end
